-- ==== Sys2Proof/Word.lean ====
section
/-! DEFINITION. The widths of the machine's values (00_scope.md R6, R9; 30_encoding.md R45). Every value is unsigned. -/

namespace Sys2Proof

/-- An 8-bit value: a general register, a timer, a memory byte, an immediate `nn` (R6, R11, R18, R21). -/
abbrev Byte := BitVec 8

/-- A 16-bit value: the instruction word, PC, I, a call-stack entry (R6, R13, R15, R16, R44). -/
abbrev Word := BitVec 16

/-- A 12-bit address operand `nnn` (R45, R47). -/
abbrev Addr := BitVec 12

/-- A 4-bit immediate `n` (R45, R47). -/
abbrev Nibble := BitVec 4

/-- The index of one of the 16 general registers; 15 is VF (R11, R12). -/
abbrev Reg := Fin 16

/-- One of the 16 keys 0x0 to 0xF (10_state.md R23). -/
abbrev Key := Fin 16

end Sys2Proof
end

