-- ==== Sys2Proof/Syntax.lean ====
section
/-! DEFINITION. The instructions: one constructor for each of the 36 rows of spec/opcode_table.json, with the operand
fields of the row's format (30_encoding.md R46). Each docstring names the encoding and the rule of its meaning. -/

namespace Sys2Proof

inductive Instr where
  /-- 00E0 `clear` (R55). -/
  | clear
  /-- 00EE `return` (R65). -/
  | ret
  /-- 1NNN `jump` (R67). -/
  | jump (nnn : Addr)
  /-- 2NNN `call` (R66). -/
  | call (nnn : Addr)
  /-- 3XNN `skip-if-eq` (R69). -/
  | skipIfEq (x : Reg) (nn : Byte)
  /-- 4XNN `skip-if-neq` (R70). -/
  | skipIfNeq (x : Reg) (nn : Byte)
  /-- 5XY0 `skip-if-reg-eq` (R71). -/
  | skipIfRegEq (x y : Reg)
  /-- 6XNN `load-imm` (R78). -/
  | loadImm (x : Reg) (nn : Byte)
  /-- 7XNN `add-imm` (R79). -/
  | addImm (x : Reg) (nn : Byte)
  /-- 8XY0 `mov` (R80). -/
  | mov (x y : Reg)
  /-- 8XY1 `or` (R81). -/
  | or (x y : Reg)
  /-- 8XY2 `and` (R82). -/
  | and (x y : Reg)
  /-- 8XY3 `xor` (R83). -/
  | xor (x y : Reg)
  /-- 8XY4 `add` (R84). -/
  | add (x y : Reg)
  /-- 8XY5 `sub` (R85). -/
  | sub (x y : Reg)
  /-- 8XY6 `shr` (R86); `y` is encoded and not used. -/
  | shr (x y : Reg)
  /-- 8XY7 `subn` (R87). -/
  | subn (x y : Reg)
  /-- 8XYE `shl` (R88); `y` is encoded and not used. -/
  | shl (x y : Reg)
  /-- 9XY0 `skip-if-reg-neq` (R72). -/
  | skipIfRegNeq (x y : Reg)
  /-- ANNN `load-index` (R90). -/
  | loadIndex (nnn : Addr)
  /-- BNNN `jump-offset` (R68). -/
  | jumpOffset (nnn : Addr)
  /-- CXNN `random` (R89). -/
  | random (x : Reg) (nn : Byte)
  /-- DXYN `draw` (R60). -/
  | draw (x y : Reg) (n : Nibble)
  /-- EX9E `skip-if-key` (R98). -/
  | skipIfKey (x : Reg)
  /-- EXA1 `skip-if-not-key` (R99). -/
  | skipIfNotKey (x : Reg)
  /-- FX07 `get-delay` (R101). -/
  | getDelay (x : Reg)
  /-- FX0A `wait-for-key` (R100). -/
  | waitForKey (x : Reg)
  /-- FX15 `set-delay` (R102). -/
  | setDelay (x : Reg)
  /-- FX18 `set-sound` (R103). -/
  | setSound (x : Reg)
  /-- FX1E `add-index` (R91). -/
  | addIndex (x : Reg)
  /-- FX29 `sprite-addr` (R92). -/
  | spriteAddr (x : Reg)
  /-- FX33 `store-bcd` (R93). -/
  | storeBcd (x : Reg)
  /-- FX55 `store-regs` (R94). -/
  | storeRegs (x : Reg)
  /-- FX65 `load-regs` (R95). -/
  | loadRegs (x : Reg)
  /-- 0NNN `sys`: every 0NNN word but 00E0 and 00EE (R51, R73). -/
  | sys (nnn : Addr)
  /-- `reserved`: every other word that matches no listed row (R51, R73). -/
  | reserved (w : Word)
deriving DecidableEq, Repr

end Sys2Proof
end

