-- ==== Sys2Proof/WellFormed.lean ====
section
/-! DEFINITION. Which terms of `Instr` stand for a word. The field types already bound every register index, immediate
and address (30_encoding.md R47); what is left to check is that `sys` and `reserved` hold only the words R51 lists,
so that no word has two terms. -/

namespace Sys2Proof

/-- The words of the row `reserved`: the last five lines of R51 (the first, 0NNN, is the row `sys`). -/
def isReservedWord (w : Word) : Bool :=
  (w &&& 0xF000 == 0x5000 && w &&& 0x000F != 0x0)
  || (w &&& 0xF000 == 0x8000 && [0x8, 0x9, 0xA, 0xB, 0xC, 0xD, 0xF].contains (w &&& 0x000F))
  || (w &&& 0xF000 == 0x9000 && w &&& 0x000F != 0x0)
  || (w &&& 0xF000 == 0xE000 && !([0x9E, 0xA1].contains (w &&& 0x00FF)))
  || (w &&& 0xF000 == 0xF000
      && !([0x07, 0x0A, 0x15, 0x18, 0x1E, 0x29, 0x33, 0x55, 0x65].contains (w &&& 0x00FF)))

/-- `i` stands for a word: a `sys` is not 00E0 or 00EE, a `reserved` word is one R51 lists. -/
def Instr.wellFormed (i : Instr) : Bool :=
  match i with
  | .sys nnn => nnn != 0x0E0 && nnn != 0x0EE
  | .reserved w => isReservedWord w
  | .clear | .ret | .jump _ | .call _ | .skipIfEq _ _ | .skipIfNeq _ _ | .skipIfRegEq _ _ | .loadImm _ _
  | .addImm _ _ | .mov _ _ | .or _ _ | .and _ _ | .xor _ _ | .add _ _ | .sub _ _ | .shr _ _ | .subn _ _ | .shl _ _
  | .skipIfRegNeq _ _ | .loadIndex _ | .jumpOffset _ | .random _ _ | .draw _ _ _ | .skipIfKey _ | .skipIfNotKey _
  | .getDelay _ | .waitForKey _ | .setDelay _ | .setSound _ | .addIndex _ | .spriteAddr _ | .storeBcd _
  | .storeRegs _ | .loadRegs _ => true

end Sys2Proof
end

