-- ==== Sys2Proof/Decode.lean ====
section
/-! DEFINITION. Instruction words: byte order, field extraction, the decoder (30_encoding.md R44 to R51), the opcode
table's masks and patterns, and the encoder. -/

namespace Sys2Proof

/-! ## Bytes and fields -/

/-- The word of two bytes, the first the most significant (20_memory.md R34). -/
def wordOfBytes (hi lo : Byte) : Word := hi ++ lo

/-- The byte of `w` stored first (R34). -/
def highByte (w : Word) : Byte := w.extractLsb' 8 8

/-- The byte of `w` stored second (R34). -/
def lowByte (w : Word) : Byte := w.extractLsb' 0 8

/-- `op`, `w[15:12]` (R45). -/
def fieldOp (w : Word) : Nibble := w.extractLsb' 12 4

/-- `nnn`, `w[11:0]` (R45). -/
def fieldNNN (w : Word) : Addr := w.extractLsb' 0 12

/-- `nn`, `w[7:0]` (R45). -/
def fieldNN (w : Word) : Byte := w.extractLsb' 0 8

/-- `n`, `w[3:0]` (R45). -/
def fieldN (w : Word) : Nibble := w.extractLsb' 0 4

/-- `x`, `w[11:8]` (R45). -/
def fieldX (w : Word) : Reg := (w.extractLsb' 8 4).toFin

/-- `y`, `w[7:4]` (R45). -/
def fieldY (w : Word) : Reg := (w.extractLsb' 4 4).toFin

/-! ## The decoder -/

/-- Family 0x0 (R49): 00E0, 00EE, and every other word `sys`. -/
def decodeFamily0 (w : Word) : Instr :=
  if w = 0x00E0 then .clear
  else if w = 0x00EE then .ret
  else .sys (fieldNNN w)

/-- Family 0x8 (R49, R50): the selector nibble of each operation. PRESUMED nibbles (log 6). -/
def decodeFamily8 (w : Word) : Instr :=
  if fieldN w = 0x0 then .mov (fieldX w) (fieldY w)
  else if fieldN w = 0x1 then .or (fieldX w) (fieldY w)
  else if fieldN w = 0x2 then .and (fieldX w) (fieldY w)
  else if fieldN w = 0x3 then .xor (fieldX w) (fieldY w)
  else if fieldN w = 0x4 then .add (fieldX w) (fieldY w)
  else if fieldN w = 0x5 then .sub (fieldX w) (fieldY w)
  else if fieldN w = 0x6 then .shr (fieldX w) (fieldY w)
  else if fieldN w = 0x7 then .subn (fieldX w) (fieldY w)
  else if fieldN w = 0xE then .shl (fieldX w) (fieldY w)
  else .reserved w

/-- Family 0xE (R49): the selector byte of each operation. -/
def decodeFamilyE (w : Word) : Instr :=
  if fieldNN w = 0x9E then .skipIfKey (fieldX w)
  else if fieldNN w = 0xA1 then .skipIfNotKey (fieldX w)
  else .reserved w

/-- Family 0xF (R49): the selector byte of each operation. -/
def decodeFamilyF (w : Word) : Instr :=
  if fieldNN w = 0x07 then .getDelay (fieldX w)
  else if fieldNN w = 0x0A then .waitForKey (fieldX w)
  else if fieldNN w = 0x15 then .setDelay (fieldX w)
  else if fieldNN w = 0x18 then .setSound (fieldX w)
  else if fieldNN w = 0x1E then .addIndex (fieldX w)
  else if fieldNN w = 0x29 then .spriteAddr (fieldX w)
  else if fieldNN w = 0x33 then .storeBcd (fieldX w)
  else if fieldNN w = 0x55 then .storeRegs (fieldX w)
  else if fieldNN w = 0x65 then .loadRegs (fieldX w)
  else .reserved w

/-- `Decode(w)` (R48, R49): on the opcode family, then on the family's selector. Total: "all 65536 possible words
decode to some family". -/
def decode (w : Word) : Instr :=
  if fieldOp w = 0x0 then decodeFamily0 w
  else if fieldOp w = 0x1 then .jump (fieldNNN w)
  else if fieldOp w = 0x2 then .call (fieldNNN w)
  else if fieldOp w = 0x3 then .skipIfEq (fieldX w) (fieldNN w)
  else if fieldOp w = 0x4 then .skipIfNeq (fieldX w) (fieldNN w)
  else if fieldOp w = 0x5 then (if fieldN w = 0x0 then .skipIfRegEq (fieldX w) (fieldY w) else .reserved w)
  else if fieldOp w = 0x6 then .loadImm (fieldX w) (fieldNN w)
  else if fieldOp w = 0x7 then .addImm (fieldX w) (fieldNN w)
  else if fieldOp w = 0x8 then decodeFamily8 w
  else if fieldOp w = 0x9 then (if fieldN w = 0x0 then .skipIfRegNeq (fieldX w) (fieldY w) else .reserved w)
  else if fieldOp w = 0xA then .loadIndex (fieldNNN w)
  else if fieldOp w = 0xB then .jumpOffset (fieldNNN w)
  else if fieldOp w = 0xC then .random (fieldX w) (fieldNN w)
  else if fieldOp w = 0xD then .draw (fieldX w) (fieldY w) (fieldN w)
  else if fieldOp w = 0xE then decodeFamilyE w
  else decodeFamilyF w

/-- Why a list of bytes holds no instruction. Raised by `decodeBytes` alone; the machine's fetch always has two bytes,
so no run meets it (safe). -/
inductive DecodeError where
  /-- Fewer than the two bytes of one word (R44). -/
  | truncated
deriving DecidableEq, Repr

/-- The instruction at the head of a list of bytes, with the bytes after it (R44: every instruction is two bytes). -/
def decodeBytes (bytes : List Byte) : Except DecodeError (Instr × List Byte) :=
  match bytes with
  | hi :: lo :: rest => .ok (decode (wordOfBytes hi lo), rest)
  | _ => .error .truncated

/-! ## The opcode table -/

/-- One row of spec/opcode_table.json: a word `w` is the row's when `w &&& mask = pattern` and no row of a lower
priority number matches (R48). -/
structure OpcodeRow where
  mnemonic : String
  mask     : Word
  pattern  : Word
  priority : Nat
deriving DecidableEq, Repr

/-- The row of each constructor, mask and pattern as spec/opcode_table.json has them. -/
def opcodeRow (i : Instr) : OpcodeRow :=
  match i with
  | .clear            => ⟨"clear", 0xFFFF, 0x00E0, 0⟩
  | .ret              => ⟨"return", 0xFFFF, 0x00EE, 0⟩
  | .jump _           => ⟨"jump", 0xF000, 0x1000, 0⟩
  | .call _           => ⟨"call", 0xF000, 0x2000, 0⟩
  | .skipIfEq _ _     => ⟨"skip-if-eq", 0xF000, 0x3000, 0⟩
  | .skipIfNeq _ _    => ⟨"skip-if-neq", 0xF000, 0x4000, 0⟩
  | .skipIfRegEq _ _  => ⟨"skip-if-reg-eq", 0xF00F, 0x5000, 0⟩
  | .loadImm _ _      => ⟨"load-imm", 0xF000, 0x6000, 0⟩
  | .addImm _ _       => ⟨"add-imm", 0xF000, 0x7000, 0⟩
  | .mov _ _          => ⟨"mov", 0xF00F, 0x8000, 0⟩
  | .or _ _           => ⟨"or", 0xF00F, 0x8001, 0⟩
  | .and _ _          => ⟨"and", 0xF00F, 0x8002, 0⟩
  | .xor _ _          => ⟨"xor", 0xF00F, 0x8003, 0⟩
  | .add _ _          => ⟨"add", 0xF00F, 0x8004, 0⟩
  | .sub _ _          => ⟨"sub", 0xF00F, 0x8005, 0⟩
  | .shr _ _          => ⟨"shr", 0xF00F, 0x8006, 0⟩
  | .subn _ _         => ⟨"subn", 0xF00F, 0x8007, 0⟩
  | .shl _ _          => ⟨"shl", 0xF00F, 0x800E, 0⟩
  | .skipIfRegNeq _ _ => ⟨"skip-if-reg-neq", 0xF00F, 0x9000, 0⟩
  | .loadIndex _      => ⟨"load-index", 0xF000, 0xA000, 0⟩
  | .jumpOffset _     => ⟨"jump-offset", 0xF000, 0xB000, 0⟩
  | .random _ _       => ⟨"random", 0xF000, 0xC000, 0⟩
  | .draw _ _ _       => ⟨"draw", 0xF000, 0xD000, 0⟩
  | .skipIfKey _      => ⟨"skip-if-key", 0xF0FF, 0xE09E, 0⟩
  | .skipIfNotKey _   => ⟨"skip-if-not-key", 0xF0FF, 0xE0A1, 0⟩
  | .getDelay _       => ⟨"get-delay", 0xF0FF, 0xF007, 0⟩
  | .waitForKey _     => ⟨"wait-for-key", 0xF0FF, 0xF00A, 0⟩
  | .setDelay _       => ⟨"set-delay", 0xF0FF, 0xF015, 0⟩
  | .setSound _       => ⟨"set-sound", 0xF0FF, 0xF018, 0⟩
  | .addIndex _       => ⟨"add-index", 0xF0FF, 0xF01E, 0⟩
  | .spriteAddr _     => ⟨"sprite-addr", 0xF0FF, 0xF029, 0⟩
  | .storeBcd _       => ⟨"store-bcd", 0xF0FF, 0xF033, 0⟩
  | .storeRegs _      => ⟨"store-regs", 0xF0FF, 0xF055, 0⟩
  | .loadRegs _       => ⟨"load-regs", 0xF0FF, 0xF065, 0⟩
  | .sys _            => ⟨"sys", 0xF000, 0x0000, 1⟩
  | .reserved _       => ⟨"reserved", 0x0000, 0x0000, 2⟩

/-- One instruction for each row, in the table's order; its operands do not matter. -/
def opcodeRepresentatives : List Instr :=
  [.clear, .ret, .jump 0, .call 0, .skipIfEq 0 0, .skipIfNeq 0 0, .skipIfRegEq 0 0, .loadImm 0 0, .addImm 0 0,
   .mov 0 0, .or 0 0, .and 0 0, .xor 0 0, .add 0 0, .sub 0 0, .shr 0 0, .subn 0 0, .shl 0 0, .skipIfRegNeq 0 0,
   .loadIndex 0, .jumpOffset 0, .random 0 0, .draw 0 0 0, .skipIfKey 0, .skipIfNotKey 0, .getDelay 0,
   .waitForKey 0, .setDelay 0, .setSound 0, .addIndex 0, .spriteAddr 0, .storeBcd 0, .storeRegs 0, .loadRegs 0,
   .sys 0, .reserved 0]

/-- The 36 rows of spec/opcode_table.json, in its order. -/
def opcodeTable : List OpcodeRow := opcodeRepresentatives.map opcodeRow

/-- The word `w` matches the row's mask and pattern (R48). -/
def OpcodeRow.matchesWord (r : OpcodeRow) (w : Word) : Bool := w &&& r.mask == r.pattern

/-! ## The encoder -/

/-- The four bits of a register field (R45). -/
def regBits (x : Reg) : Nibble := BitVec.ofFin x

/-- Format A: `op[15:12] nnn[11:0]` (R46). -/
def encodeA (op : Nibble) (nnn : Addr) : Word := op ++ nnn

/-- Format XNN: `op[15:12] x[11:8] nn[7:0]` (R46). -/
def encodeXNN (op : Nibble) (x : Reg) (nn : Byte) : Word := op ++ regBits x ++ nn

/-- Formats XY and XYN: `op[15:12] x[11:8] y[7:4]`, then a sub-opcode or `n` in `[3:0]` (R46). -/
def encodeXYN (op : Nibble) (x y : Reg) (n : Nibble) : Word := op ++ regBits x ++ regBits y ++ n

/-- The word of an instruction (R46, opcode_table.json). Format X is XNN with the sub-byte as `nn`. -/
def encode (i : Instr) : Word :=
  match i with
  | .clear            => 0x00E0
  | .ret              => 0x00EE
  | .jump nnn         => encodeA 0x1 nnn
  | .call nnn         => encodeA 0x2 nnn
  | .skipIfEq x nn    => encodeXNN 0x3 x nn
  | .skipIfNeq x nn   => encodeXNN 0x4 x nn
  | .skipIfRegEq x y  => encodeXYN 0x5 x y 0x0
  | .loadImm x nn     => encodeXNN 0x6 x nn
  | .addImm x nn      => encodeXNN 0x7 x nn
  | .mov x y          => encodeXYN 0x8 x y 0x0
  | .or x y           => encodeXYN 0x8 x y 0x1
  | .and x y          => encodeXYN 0x8 x y 0x2
  | .xor x y          => encodeXYN 0x8 x y 0x3
  | .add x y          => encodeXYN 0x8 x y 0x4
  | .sub x y          => encodeXYN 0x8 x y 0x5
  | .shr x y          => encodeXYN 0x8 x y 0x6
  | .subn x y         => encodeXYN 0x8 x y 0x7
  | .shl x y          => encodeXYN 0x8 x y 0xE
  | .skipIfRegNeq x y => encodeXYN 0x9 x y 0x0
  | .loadIndex nnn    => encodeA 0xA nnn
  | .jumpOffset nnn   => encodeA 0xB nnn
  | .random x nn      => encodeXNN 0xC x nn
  | .draw x y n       => encodeXYN 0xD x y n
  | .skipIfKey x      => encodeXNN 0xE x 0x9E
  | .skipIfNotKey x   => encodeXNN 0xE x 0xA1
  | .getDelay x       => encodeXNN 0xF x 0x07
  | .waitForKey x     => encodeXNN 0xF x 0x0A
  | .setDelay x       => encodeXNN 0xF x 0x15
  | .setSound x       => encodeXNN 0xF x 0x18
  | .addIndex x       => encodeXNN 0xF x 0x1E
  | .spriteAddr x     => encodeXNN 0xF x 0x29
  | .storeBcd x       => encodeXNN 0xF x 0x33
  | .storeRegs x      => encodeXNN 0xF x 0x55
  | .loadRegs x       => encodeXNN 0xF x 0x65
  | .sys nnn          => encodeA 0x0 nnn
  | .reserved w       => w

/-- The two bytes of an instruction in the order memory holds them (R34). -/
def encodeBytes (i : Instr) : List Byte := [highByte (encode i), lowByte (encode i)]

/-! ## The table's words, as the host numbers them -/

/-- The first word of an instruction whose lowest `nbits` bits are those of `w` and whose other bits are zero: bit 0 is
the least significant bit of the first (and only) word. -/
def tableWord (nbits w : Nat) : Word := BitVec.ofNat 16 (w % 2 ^ nbits)

/-- The instruction the decoder reads from that word laid out as memory holds it. -/
def decodeTableWord (nbits w : Nat) : Option Instr :=
  match decodeBytes [highByte (tableWord nbits w), lowByte (tableWord nbits w)] with
  | .ok (i, _) => some i
  | .error _ => none

end Sys2Proof
end

