-- ==== Sys2Proof/Config.lean ====
section
/-! DEFINITION. What the spec fixes for the hardware (00_scope.md R6), the open parameters a model takes as arguments
(R7), and the free value of the random port (60_exceptions.md R118). -/

namespace Sys2Proof

/-- `MEM_SIZE`: bytes of memory (R6). -/
def memSize : Nat := 0x1000

/-- `PROGRAM_BASE`: where a loaded image starts, and PC after reset (R6, R28). -/
def programBase : Nat := 0x200

/-- `PROGRAM_MAX`: the largest number of image bytes a load copies (R6, R115). -/
def programMax : Nat := 0xE00

/-- `FLAG_ORDER`: which of the two register writes of an ALU flag operation comes first (42_alu.md R77). -/
inductive FlagOrder where
  | flagThenResult
  | resultThenFlag
deriving DecidableEq, Repr

/-- `TIMERS_WHILE_WAITING`: whether a tick in `AwaitingKey` steps the timers (30_encoding.md R42). -/
inductive WaitTimers where
  | decrement
  | hold
deriving DecidableEq, Repr

/-- `RESERVED_POLICY`: what a reserved word does (41_control_flow.md R73). -/
inductive ReservedPolicy where
  | nop
  | refuse
deriving DecidableEq, Repr

/-- `KEY_INDEX_POLICY`: which key a register value above 0x0F names (44_timers_keys.md R97). -/
inductive KeyIndexPolicy where
  | lowNibble
  | neverPressed
deriving DecidableEq, Repr

/-- The six open parameters of R7. State carries one value of this type that no step changes (log 1), so a statement
about every state is a statement about every choice of the parameters. -/
structure Config where
  flagOrder          : FlagOrder
  timersWhileWaiting : WaitTimers
  fontBase           : Word
  fontImage          : Option (List Byte)
  reservedPolicy     : ReservedPolicy
  keyIndexPolicy     : KeyIndexPolicy
deriving DecidableEq, Repr

/-- The defaults of R7. -/
def defaultConfig : Config where
  flagOrder          := .flagThenResult
  timersWhileWaiting := .decrement
  fontBase           := 0x000
  fontImage          := none
  reservedPolicy     := .nop
  keyIndexPolicy     := .lowNibble

/-- FREE VALUE (log 18): the byte the random port answers to its `n`-th request when State holds no answer for it:
"a draw under no law" (R118). It has no body, so nothing can be proved of its value. -/
opaque randomByte : Nat → Byte

end Sys2Proof
end

