-- ==== Sys2Proof/Machine/State.lean ====
section
/-! DEFINITION. The machine's state (10_state.md R11 to R28), the reasons a step can stop, and the state after reset. -/

namespace Sys2Proof.Machine

/-- Memory as (address, byte) pairs in one canonical form: addresses strictly rising and below 4096, and no byte 0x00,
which is what an unlisted address reads as (R28: every byte is 0x00 after reset; log 22). -/
abbrev Memory := List Host.Cell

/-- The framebuffer: 32 rows of 64 pixels, `fb[y][x]`, true when lit (R19). -/
abbrev Framebuffer := Vector (Vector Bool 64) 32

/-- The engine's control state (R22). -/
inductive Mode where
  /-- No program has been loaded; ticks have no effect. -/
  | idle
  /-- Each tick runs one instruction and steps the timers. -/
  | running
  /-- A `wait-for-key` naming register `x` is blocked. -/
  | awaitingKey (x : Reg)
deriving DecidableEq, Repr

/-- What the host can do to the block between ticks (60_exceptions.md R109, R114). -/
inductive HostCommand where
  /-- `tick`: perform one tick (30_encoding.md R42). -/
  | tick
  /-- `load(image)` (R115). -/
  | load (image : List Byte)
  /-- A load that delivers no image (R107). -/
  | loadFailed
  /-- `reset` (70_reset_and_hazards.md R125). -/
  | reset
  /-- `frame_ack` (R119). -/
  | frameAck
  /-- `key_press(k)`: key `k` has just transitioned to pressed (R117). -/
  | keyPress (k : Key)
  /-- The keypad changes the level of `keys_in` (R116). -/
  | keys (level : BitVec 16)
deriving DecidableEq, Repr

structure State where
  /-- The open parameters of R7; no step changes them (log 1). -/
  cfg : Config
  /-- `V0` to `VF` (R11). -/
  v : Vector Byte 16
  /-- `PC` (R13). -/
  pc : Word
  /-- `I` (R15). -/
  i : Word
  /-- `stack[0..15]` (R16). -/
  stack : Vector Word 16
  /-- `SP`, the number of entries in use, 0 to 16 (R16). -/
  sp : Fin 17
  /-- `mem[0x000..0xFFF]` (R18). -/
  mem : Memory
  /-- `Fb[y][x]` (R19). -/
  fb : Framebuffer
  /-- `frame_dirty` (R20). -/
  frameDirty : Bool
  /-- `DT` (R21). -/
  dt : Byte
  /-- `ST` (R21). -/
  st : Byte
  /-- `mode` (R22). -/
  mode : Mode
  /-- The last program image, none before the first load (R25). -/
  image : Option (List Byte)
  /-- INPUT `keys_in`: key `k` is pressed when bit `k` is 1 (R23, R116; log 19). -/
  keysIn : BitVec 16
  /-- INPUT: the host commands offered and not yet applied, oldest first (R109; log 20). -/
  hostQueue : List HostCommand
  /-- INPUT: the bytes the random port has ready, next answer first (R118; log 18). -/
  randIn : List Byte
  /-- The model's own counter: how many requests the random port has had; the free byte is read at it (log 18). -/
  randRequests : Nat
deriving DecidableEq, Repr

/-- Why a step faults: there is no reason. "no instruction, no word, no address and no operand value causes a trap, a
fault or a halt" (R104), so the type has no constructor and no run can end in one. Safe: nothing is left out by it
(log 23). -/
inductive Fault where
deriving DecidableEq, Repr

/-- Why a step is refused. -/
inductive Refusal where
  /-- An instruction whose arm in Machine/Dispatch.lean has no meaning yet; no arm raises it now. Safe. -/
  | notModelled (mnemonic : String)
  /-- Raised by `sys` and `reserved` when `RESERVED_POLICY = refuse`: "a model gives such a word no meaning and refuses
  the step instead" (R73). Safe: the model stops where the hardware goes on. -/
  | reservedWord (w : Word)
deriving DecidableEq, Repr

/-- The machine right after reset, nothing loaded (R28). The fields the spec gives no value to are inputs and the
model's own (logs 1, 18, 19, 20). -/
def State.reset : State where
  cfg          := defaultConfig
  v            := Vector.replicate 16 0x00
  pc           := 0x0200
  i            := 0x0000
  stack        := Vector.replicate 16 0x0000
  sp           := 0
  mem          := []
  fb           := Vector.replicate 32 (Vector.replicate 64 false)
  frameDirty   := false
  dt           := 0x00
  st           := 0x00
  mode         := .idle
  image        := none
  keysIn       := 0x0000
  hostQueue    := []
  randIn       := []
  randRequests := 0

end Sys2Proof.Machine
end

