-- ==== Sys2Proof/Machine/Ops.lean ====
section
/-! DEFINITION. The named operations on memory and registers: the pseudocode primitives of 00_scope.md R10, the call
stack (10_state.md R17), fetch (20_memory.md R34), the timer step (60_exceptions.md R111), the random port (R118), reset
and load (70_reset_and_hazards.md R125; R115). There is no operation that takes an exception and none that returns from
one: 60_exceptions.md R104 and R106 give the block neither (log 23). -/

namespace Sys2Proof.Machine

/-! ## Memory -/

/-- The byte at address `a`; an unlisted address reads 0x00 (log 22). -/
def Memory.get (m : Memory) (a : Nat) : Byte :=
  match m with
  | [] => 0x00
  | (c, b) :: rest => if a = c then b else Memory.get rest a

/-- `b` placed before `rest`, or left out when it is what an unlisted address reads as. -/
def Memory.cons (a : Nat) (b : Byte) (rest : Memory) : Memory :=
  if b = 0x00 then rest else (a, b) :: rest

/-- The memory with byte `b` at address `a`, in canonical form. -/
def Memory.put (m : Memory) (a : Nat) (b : Byte) : Memory :=
  match m with
  | [] => Memory.cons a b []
  | (c, d) :: rest =>
    if a < c then Memory.cons a b ((c, d) :: rest)
    else if a = c then Memory.cons a b rest
    else (c, d) :: Memory.put rest a b

/-- The canonical form from address `lo` up: rising addresses below 4096, no byte 0x00. -/
def Memory.wfFrom (lo : Nat) (m : Memory) : Bool :=
  match m with
  | [] => true
  | (a, b) :: rest => decide (lo ≤ a) && decide (a < memSize) && b != 0x00 && Memory.wfFrom (a + 1) rest

/-- The canonical form of memory. -/
def Memory.wf (m : Memory) : Bool := Memory.wfFrom 0 m

/-- `MemRead(a, 1)`: the byte at `a mod 4096` (R10, R33). -/
def Memory.read (m : Memory) (a : Nat) : Byte := Memory.get m (a % memSize)

/-- `MemWrite(a, 1, b)`: `b` stored at `a mod 4096` (R10, R33). -/
def Memory.write (m : Memory) (a : Nat) (b : Byte) : Memory := Memory.put m (a % memSize) b

/-- The bytes of a list written at ascending addresses from `a`. -/
def Memory.writeBytes (m : Memory) (a : Nat) (bytes : List Byte) : Memory :=
  match bytes with
  | [] => m
  | b :: rest => Memory.writeBytes (Memory.write m a b) (a + 1) rest

/-- `MemRead(a, 1)` in a state. -/
def State.memRead (s : State) (a : Nat) : Byte := Memory.read s.mem a

/-- `MemWrite(a, 1, b)` in a state: only the byte at `a mod 4096` changes (R38). -/
def State.memWrite (s : State) (a : Nat) (b : Byte) : State := { s with mem := Memory.write s.mem a b }

/-! ## Registers -/

/-- VF, the flag register (R12). -/
def regF : Reg := 15

/-- `V[x]` read (R10, R11). -/
def State.reg (s : State) (x : Reg) : Byte := s.v[x]

/-- `V[x] <- b` (R10, R11). -/
def State.setReg (s : State) (x : Reg) (b : Byte) : State := { s with v := s.v.set x b }

/-- `PC <- a`, stored modulo 4096 (R13). -/
def State.setPc (s : State) (a : Nat) : State := { s with pc := BitVec.ofNat 16 (a % memSize) }

/-- PC moved 2 bytes on: the tick's advance (R14, R42) and a taken skip (41_control_flow.md R63). -/
def State.advancePc (s : State) : State := s.setPc (s.pc.toNat + 2)

/-! ## The call stack (R17) -/

/-- `Push(w)`: no change on a full stack. -/
def State.push (s : State) (w : Word) : State :=
  if h : s.sp.val < 16 then { s with stack := s.stack.set s.sp.val w, sp := ⟨s.sp.val + 1, by omega⟩ } else s

/-- What `Pop()` returns: the newest entry, or none when the stack is empty. -/
def State.top (s : State) : Option Word :=
  if h : s.sp.val = 0 then none else some (s.stack[s.sp.val - 1]'(by omega))

/-- What `Pop()` does: one entry fewer, its stored value kept; no change on an empty stack (log 16). -/
def State.drop (s : State) : State := { s with sp := ⟨s.sp.val - 1, by omega⟩ }

/-! ## Fetch, timers and random -/

/-- `MemRead(PC, 2)`: the bytes at PC and PC + 1, the first the most significant (R34). -/
def State.fetchWord (s : State) : Word :=
  wordOfBytes (s.memRead s.pc.toNat) (s.memRead (s.pc.toNat + 1))

/-- One timer's step: down by one while above zero (R111). -/
def countDown (t : Byte) : Byte := if t = 0x00 then 0x00 else t - 1

/-- `TimerStep()` (R111). -/
def State.timerStep (s : State) : State := { s with dt := countDown s.dt, st := countDown s.st }

/-- The byte the random port answers to the next request: the one it has ready, else the free value (R118; log 18). -/
def State.nextRandom (s : State) : Byte := s.randIn.headD (randomByte s.randRequests)

/-- One request made to the random port (R118). -/
def State.requestRandom (s : State) : State :=
  { s with randIn := s.randIn.tail, randRequests := s.randRequests + 1 }

/-! ## The end of a tick -/

/-- The timer step after the execute phase (R42); a refused step stays refused. -/
def finishTick (o : Host.Outcome State Fault Refusal) : Host.Outcome State Fault Refusal :=
  match o with
  | .next t => .next t.timerStep
  | .fault r => .fault r
  | .refused r => .refused r

/-! ## Reset and load -/

/-- Memory after a reset: zero, then `FONT_IMAGE` at `FONT_BASE` if it is given, then the recorded image at 0x200
(R125, R28; log 12). -/
def resetMemory (cfg : Config) (image : Option (List Byte)) : Memory :=
  Memory.writeBytes (Memory.writeBytes [] cfg.fontBase.toNat (cfg.fontImage.getD [])) programBase (image.getD [])

/-- The mode after a reset: `Running` if an image is recorded, `Idle` otherwise (R125). -/
def resetMode (image : Option (List Byte)) : Mode :=
  match image with
  | none => .idle
  | some _ => .running

/-- `Reset()` (R125). The recorded image, the configuration and the inputs keep their values (R28, R127). -/
def State.resetOp (s : State) : State :=
  { s with
    v          := Vector.replicate 16 0x00
    i          := 0x0000
    pc         := BitVec.ofNat 16 programBase
    sp         := 0
    stack      := Vector.replicate 16 0x0000
    mem        := resetMemory s.cfg s.image
    fb         := Vector.replicate 32 (Vector.replicate 64 false)
    dt         := 0x00
    st         := 0x00
    frameDirty := false
    mode       := resetMode s.image }

/-- `load(image)`: the first 0xE00 bytes recorded as the last image, then the reset (R115). -/
def State.loadOp (s : State) (image : List Byte) : State :=
  State.resetOp { s with image := some (image.take programMax) }

/-! ## Placing one instruction for the next step -/

/-- `s` with the word `w` at PC and everything else its fetch needs: the mode `Running`, an image recorded (the word's
own two bytes if there was none, as a load of them would leave) and a `tick` as the next host command (log 21). -/
def State.placeWord (s : State) (w : Word) : State :=
  { (s.memWrite s.pc.toNat (highByte w)).memWrite (s.pc.toNat + 1) (lowByte w) with
    mode      := .running
    image     := some (s.image.getD [highByte w, lowByte w])
    hostQueue := .tick :: s.hostQueue }

end Sys2Proof.Machine
end

