-- ==== Sys2Proof/Machine/Flags.lean ====
section
/-! DEFINITION. The flag values of VF (42_alu.md R74, R75) and the ordered pair of writes (R77). -/

namespace Sys2Proof.Machine

/-- A flag as VF holds it: 1 or 0. -/
def flagByte (f : Bool) : Byte := if f then 0x01 else 0x00

/-- The carry of an addition, from the exact sum: `value > 0xFF` (R74). -/
def carryOut (a b : Byte) : Bool := decide (a.toNat + b.toNat > 0xFF)

/-- "No borrow" of `lhs - rhs`: `lhs >= rhs` (R74). -/
def noBorrow (lhs rhs : Byte) : Bool := decide (lhs.toNat ≥ rhs.toNat)

/-- The bit a shift right by one shifts out (R86). -/
def shiftedOutRight (a : Byte) : Bool := a.getLsbD 0

/-- The bit a shift left by one shifts out (R88). -/
def shiftedOutLeft (a : Byte) : Bool := a.getLsbD 7

/-- `WriteResultAndFlag(x, result, flag)` in the order `FLAG_ORDER` gives (R77). -/
def State.writeResultAndFlag (s : State) (x : Reg) (result : Byte) (f : Bool) : State :=
  match s.cfg.flagOrder with
  | .flagThenResult => (s.setReg regF (flagByte f)).setReg x result
  | .resultThenFlag => (s.setReg x result).setReg regF (flagByte f)

end Sys2Proof.Machine
end

