-- ==== Sys2Proof/Machine/Operands.lean ====
section
/-! DEFINITION. The operand forms beyond a plain register or immediate: the address in I (20_memory.md R33), the key a
register names (44_timers_keys.md R97), the glyph address (43_index_memory.md R92), the sprite origin (40_display.md
R57), the taken skip (41_control_flow.md R63), and the register blocks of `store-regs` and `load-regs`. -/

namespace Sys2Proof.Machine

/-- The address `I + k`, before its reduction modulo 4096 by the access (R33). -/
def State.indexed (s : State) (k : Nat) : Nat := s.i.toNat + k

/-- Whether the key named by `V[x]` is pressed (R97, R116): the key of the low nibble, or, under `never_pressed`, no
key at all for a value above 0x0F. -/
def State.keyPressed (s : State) (x : Reg) : Bool :=
  match s.cfg.keyIndexPolicy with
  | .lowNibble => s.keysIn.getLsbD ((s.reg x).toNat % 16)
  | .neverPressed => decide ((s.reg x).toNat ≤ 0x0F) && s.keysIn.getLsbD (s.reg x).toNat

/-- `FONT_BASE + 5 * (V[x] mod 16)`, modulo 65536 (R92). -/
def State.glyphAddress (s : State) (x : Reg) : Word :=
  BitVec.ofNat 16 (s.cfg.fontBase.toNat + 5 * ((s.reg x).toNat % 16))

/-- `x0 = V[x] mod 64`, the column of a sprite's left edge (R57). -/
def State.originColumn (s : State) (x : Reg) : Nat := (s.reg x).toNat % 64

/-- `y0 = V[y] mod 32`, the row of a sprite's top edge (R57). -/
def State.originRow (s : State) (y : Reg) : Nat := (s.reg y).toNat % 32

/-- Skip the next word if `taken` (R63). -/
def State.skipIf (s : State) (taken : Bool) : State := if taken then s.advancePc else s

/-- Register number `k` of a block counted up from V0; the callers pass 0 to 15. -/
def blockReg (k : Nat) : Reg := Fin.ofNat 16 k

/-- `V[0]` to `V[count - 1]` stored at `I`, `I + 1`, … in that order (R94). -/
def State.storeBlock (s : State) (count : Nat) : State :=
  match count with
  | 0 => s
  | k + 1 => (s.storeBlock k).memWrite (s.indexed k) (s.reg (blockReg k))

/-- `V[0]` to `V[count - 1]` loaded from `I`, `I + 1`, … in that order (R95). -/
def State.loadBlock (s : State) (count : Nat) : State :=
  match count with
  | 0 => s
  | k + 1 => (s.loadBlock k).setReg (blockReg k) (s.memRead (s.indexed k))

end Sys2Proof.Machine
end

