-- ==== Sys2Proof/Machine/Alu.lean ====
section
/-! DEFINITION. The ALU family (42_alu.md). Every source register is read before any register is written (R76). -/

namespace Sys2Proof.Machine

/-- `load-imm` (R78). -/
def execLoadImm (x : Reg) (nn : Byte) (s : State) : Host.Outcome State Fault Refusal :=
  .next (s.setReg x nn)

/-- `add-imm` (R79): modulo 256, no flag. -/
def execAddImm (x : Reg) (nn : Byte) (s : State) : Host.Outcome State Fault Refusal :=
  .next (s.setReg x (s.reg x + nn))

/-- `mov` (R80). PRESUMED direction `VX := VY` (log 7). -/
def execMov (x y : Reg) (s : State) : Host.Outcome State Fault Refusal :=
  .next (s.setReg x (s.reg y))

/-- `or` (R81). -/
def execOr (x y : Reg) (s : State) : Host.Outcome State Fault Refusal :=
  .next (s.setReg x (s.reg x ||| s.reg y))

/-- `and` (R82). -/
def execAnd (x y : Reg) (s : State) : Host.Outcome State Fault Refusal :=
  .next (s.setReg x (s.reg x &&& s.reg y))

/-- `xor` (R83). -/
def execXor (x y : Reg) (s : State) : Host.Outcome State Fault Refusal :=
  .next (s.setReg x (s.reg x ^^^ s.reg y))

/-- `add` (R84): VF is the carry. -/
def execAdd (x y : Reg) (s : State) : Host.Outcome State Fault Refusal :=
  .next (s.writeResultAndFlag x (s.reg x + s.reg y) (carryOut (s.reg x) (s.reg y)))

/-- `sub` (R85): `VX - VY`, VF is no borrow. PRESUMED direction (log 7). -/
def execSub (x y : Reg) (s : State) : Host.Outcome State Fault Refusal :=
  .next (s.writeResultAndFlag x (s.reg x - s.reg y) (noBorrow (s.reg x) (s.reg y)))

/-- `shr` (R86): VF is the bit shifted out. PRESUMED: VX is shifted and VY is not read (log 8). -/
def execShr (x _y : Reg) (s : State) : Host.Outcome State Fault Refusal :=
  .next (s.writeResultAndFlag x (s.reg x >>> 1) (shiftedOutRight (s.reg x)))

/-- `subn` (R87): `VY - VX`, VF is no borrow. PRESUMED direction (log 7). -/
def execSubn (x y : Reg) (s : State) : Host.Outcome State Fault Refusal :=
  .next (s.writeResultAndFlag x (s.reg y - s.reg x) (noBorrow (s.reg y) (s.reg x)))

/-- `shl` (R88): VF is the bit shifted out. PRESUMED: VX is shifted and VY is not read (log 8). -/
def execShl (x _y : Reg) (s : State) : Host.Outcome State Fault Refusal :=
  .next (s.writeResultAndFlag x (s.reg x <<< 1) (shiftedOutLeft (s.reg x)))

/-- `random` (R89): one request to the random port, its byte masked by `nn`. -/
def execRandom (x : Reg) (nn : Byte) (s : State) : Host.Outcome State Fault Refusal :=
  .next (s.requestRandom.setReg x (s.nextRandom &&& nn))

end Sys2Proof.Machine
end

