-- ==== Sys2Proof/Machine/Control.lean ====
section
/-! DEFINITION. The control-flow family (41_control_flow.md). When a meaning runs, PC already holds the address of the
instruction plus 2 (10_state.md R14; log 24). -/

namespace Sys2Proof.Machine

/-- `return` (R65): the popped entry into PC; an empty stack changes nothing. -/
def execRet (s : State) : Host.Outcome State Fault Refusal :=
  match s.top with
  | none => .next s
  | some w => .next (s.drop.setPc w.toNat)

/-- `call` (R66): a full stack changes nothing, PC included. -/
def execCall (nnn : Addr) (s : State) : Host.Outcome State Fault Refusal :=
  if s.sp.val = 16 then .next s else .next ((s.push s.pc).setPc nnn.toNat)

/-- `jump` (R67). -/
def execJump (nnn : Addr) (s : State) : Host.Outcome State Fault Refusal :=
  .next (s.setPc nnn.toNat)

/-- `jump-offset` (R68): `nnn + V0`, modulo 4096. -/
def execJumpOffset (nnn : Addr) (s : State) : Host.Outcome State Fault Refusal :=
  .next (s.setPc (nnn.toNat + (s.reg 0).toNat))

/-- `skip-if-eq` (R69). -/
def execSkipIfEq (x : Reg) (nn : Byte) (s : State) : Host.Outcome State Fault Refusal :=
  .next (s.skipIf (s.reg x == nn))

/-- `skip-if-neq` (R70). -/
def execSkipIfNeq (x : Reg) (nn : Byte) (s : State) : Host.Outcome State Fault Refusal :=
  .next (s.skipIf (s.reg x != nn))

/-- `skip-if-reg-eq` (R71). -/
def execSkipIfRegEq (x y : Reg) (s : State) : Host.Outcome State Fault Refusal :=
  .next (s.skipIf (s.reg x == s.reg y))

/-- `skip-if-reg-neq` (R72). -/
def execSkipIfRegNeq (x y : Reg) (s : State) : Host.Outcome State Fault Refusal :=
  .next (s.skipIf (s.reg x != s.reg y))

/-- A reserved word (R73): no change, or, under `RESERVED_POLICY = refuse`, no meaning. -/
def reservedWord (w : Word) (s : State) : Host.Outcome State Fault Refusal :=
  match s.cfg.reservedPolicy with
  | .nop => .next s
  | .refuse => .refused (.reservedWord w)

/-- `sys`: a reserved word 0NNN (R73). -/
def execSys (nnn : Addr) (s : State) : Host.Outcome State Fault Refusal :=
  reservedWord (encode (.sys nnn)) s

/-- `reserved` (R73). -/
def execReserved (w : Word) (s : State) : Host.Outcome State Fault Refusal :=
  reservedWord (encode (.reserved w)) s

end Sys2Proof.Machine
end

