-- ==== Sys2Proof/Machine/Display.lean ====
section
/-! DEFINITION. The display family (40_display.md): `clear` and `draw`, with the sprite loop of R60. -/

namespace Sys2Proof.Machine

/-- `Fb[y][x]`; a place off the canvas is unlit (R10, R19). -/
def pixelAt (fb : Framebuffer) (y x : Nat) : Bool :=
  if h : y < 32 ∧ x < 64 then fb[y][x] else false

/-- `Fb[y][x] <- not Fb[y][x]` on the canvas. -/
def togglePixel (fb : Framebuffer) (y x : Nat) : Framebuffer :=
  if h : y < 32 ∧ x < 64 then fb.set y (fb[y].set x (!fb[y][x])) else fb

/-- What the sprite loop carries: the framebuffer so far and whether a collision has occurred (`hit`, R60). -/
structure Blit where
  fb  : Framebuffer
  hit : Bool
deriving DecidableEq, Repr

/-- One sprite pixel: clipped off the canvas (R58), else XORed with a collision when the target was lit (R59). -/
def blitPixel (isSet : Bool) (y x : Nat) (b : Blit) : Blit :=
  if isSet = true ∧ x < 64 ∧ y < 32 then
    { fb := togglePixel b.fb y x, hit := b.hit || pixelAt b.fb y x }
  else b

/-- The pixels `c = 0 .. count - 1` of one sprite row, bit 7 leftmost (R56). -/
def blitRow (row : Byte) (y x0 count : Nat) (b : Blit) : Blit :=
  match count with
  | 0 => b
  | c + 1 => blitPixel (row.getLsbD (7 - c)) y (x0 + c) (blitRow row y x0 c b)

/-- The rows `r = 0 .. count - 1` of the sprite at I (R56, R60). -/
def blitSprite (s : State) (y0 x0 count : Nat) : Blit :=
  match count with
  | 0 => { fb := s.fb, hit := false }
  | r + 1 => blitRow (s.memRead (s.indexed r)) (y0 + r) x0 8 (blitSprite s y0 x0 r)

/-- `clear` (R55). -/
def execClear (s : State) : Host.Outcome State Fault Refusal :=
  .next { s with fb := Vector.replicate 32 (Vector.replicate 64 false), frameDirty := true }

/-- `draw` (R60): both coordinates are read before VF is written. -/
def execDraw (x y : Reg) (n : Nibble) (s : State) : Host.Outcome State Fault Refusal :=
  let b := blitSprite s (s.originRow y) (s.originColumn x) n.toNat
  .next { s.setReg regF (flagByte b.hit) with fb := b.fb, frameDirty := true }

end Sys2Proof.Machine
end

