-- ==== Sys2Proof/Machine/IndexMemory.lean ====
section
/-! DEFINITION. The index and memory family (43_index_memory.md). -/

namespace Sys2Proof.Machine

/-- `load-index` (R90). -/
def execLoadIndex (nnn : Addr) (s : State) : Host.Outcome State Fault Refusal :=
  .next { s with i := nnn.setWidth 16 }

/-- `add-index` (R91): modulo 65536, no flag (log 4). -/
def execAddIndex (x : Reg) (s : State) : Host.Outcome State Fault Refusal :=
  .next { s with i := s.i + (s.reg x).setWidth 16 }

/-- `sprite-addr` (R92). PRESUMED: five bytes a glyph from `FONT_BASE` (log 12). -/
def execSpriteAddr (x : Reg) (s : State) : Host.Outcome State Fault Refusal :=
  .next { s with i := s.glyphAddress x }

/-- `store-bcd` (R93): hundreds at I, tens at I + 1, ones at I + 2. -/
def execStoreBcd (x : Reg) (s : State) : Host.Outcome State Fault Refusal :=
  .next
    (((s.memWrite (s.indexed 0) (BitVec.ofNat 8 ((s.reg x).toNat / 100))).memWrite
      (s.indexed 1) (BitVec.ofNat 8 ((s.reg x).toNat / 10 % 10))).memWrite
      (s.indexed 2) (BitVec.ofNat 8 ((s.reg x).toNat % 10)))

/-- `store-regs` (R94): V0 to VX; I unchanged (log 14). -/
def execStoreRegs (x : Reg) (s : State) : Host.Outcome State Fault Refusal :=
  .next (s.storeBlock (x.val + 1))

/-- `load-regs` (R95): V0 to VX; I unchanged (log 14). -/
def execLoadRegs (x : Reg) (s : State) : Host.Outcome State Fault Refusal :=
  .next (s.loadBlock (x.val + 1))

end Sys2Proof.Machine
end

