-- ==== Sys2Proof/Machine/TimersKeys.lean ====
section
/-! DEFINITION. The keypad and timer family (44_timers_keys.md). The timer step of the same tick follows a meaning; the
tick adds it (30_encoding.md R42). -/

namespace Sys2Proof.Machine

/-- `skip-if-key` (R98). -/
def execSkipIfKey (x : Reg) (s : State) : Host.Outcome State Fault Refusal :=
  .next (s.skipIf (s.keyPressed x))

/-- `skip-if-not-key` (R99). -/
def execSkipIfNotKey (x : Reg) (s : State) : Host.Outcome State Fault Refusal :=
  .next (s.skipIf (!s.keyPressed x))

/-- `wait-for-key` (R100): the wait is the engine mode; the key-press event ends it. -/
def execWaitForKey (x : Reg) (s : State) : Host.Outcome State Fault Refusal :=
  .next { s with mode := .awaitingKey x }

/-- `get-delay` (R101): DT as it stands before this tick's timer step. -/
def execGetDelay (x : Reg) (s : State) : Host.Outcome State Fault Refusal :=
  .next (s.setReg x s.dt)

/-- `set-delay` (R102). -/
def execSetDelay (x : Reg) (s : State) : Host.Outcome State Fault Refusal :=
  .next { s with dt := s.reg x }

/-- `set-sound` (R103). -/
def execSetSound (x : Reg) (s : State) : Host.Outcome State Fault Refusal :=
  .next { s with st := s.reg x }

end Sys2Proof.Machine
end

