-- ==== Sys2Proof/Machine/Tick.lean ====
section
/-! DEFINITION. The tick (30_encoding.md R42) and the host's commands and events (60_exceptions.md R109, R114 to R119),
with the block's outputs. -/

namespace Sys2Proof.Machine

/-- One tick in mode `Running`: fetch, PC advance, decode, execute, timer step (R42). -/
def tickRunning (s : State) : Host.Outcome State Fault Refusal :=
  finishTick (exec (decode s.fetchWord) s.advancePc)

/-- One tick in mode `AwaitingKey`: no fetch, no execute; the timer step as `TIMERS_WHILE_WAITING` says (R42). -/
def tickAwaiting (s : State) : State :=
  match s.cfg.timersWhileWaiting with
  | .decrement => s.timerStep
  | .hold => s

/-- `Tick()` (R42). -/
def tick (s : State) : Host.Outcome State Fault Refusal :=
  match s.mode with
  | .idle => .next s
  | .awaitingKey _ => .next (tickAwaiting s)
  | .running => tickRunning s

/-- `KeyPress(k)` (44_timers_keys.md R100): ends a wait, and is not remembered outside one. -/
def keyPress (k : Key) (s : State) : State :=
  match s.mode with
  | .awaitingKey x => { s.setReg x (BitVec.ofNat 8 k.val) with mode := .running }
  | .idle => s
  | .running => s

/-- One host command or event, applied completely (R109). -/
def hostCommand (c : HostCommand) (s : State) : Host.Outcome State Fault Refusal :=
  match c with
  | .tick => tick s
  | .load image => .next (s.loadOp image)
  | .loadFailed => .next s
  | .reset => .next s.resetOp
  | .frameAck => .next { s with frameDirty := false }
  | .keyPress k => .next (keyPress k s)
  | .keys level => .next { s with keysIn := level }

/-- The next thing that happens: the oldest offered command, or a tick when none is offered (log 20). -/
def advance (s : State) : Host.Outcome State Fault Refusal :=
  match s.hostQueue with
  | [] => tick s
  | c :: rest => hostCommand c { s with hostQueue := rest }

/-! ## Outputs (R114) -/

/-- `fb_out`: the 2048 pixels, row-major (R19, R119). -/
def fbOut (s : State) : List Bool := (s.fb.toList.map (fun row => row.toList)).flatten

/-- What the display receives: the whole framebuffer, and only when a dirty frame is signalled (R62, R119). -/
def displayFrame (s : State) : Option (List Bool) := if s.frameDirty then some (fbOut s) else none

/-- `mode_out` (R22). -/
def modeOut (s : State) : Mode := s.mode

/-- `st_out` (R113). -/
def stOut (s : State) : Byte := s.st

end Sys2Proof.Machine
end

