-- ==== Sys2Proof/Safety.lean ====
section
/-! DEFINITION. What the claims call a legal state and an ordinary step. -/

namespace Sys2Proof.Machine

/-- A recorded image is at most 0xE00 bytes (10_state.md R25). -/
def imageFits (image : Option (List Byte)) : Bool :=
  match image with
  | none => true
  | some bytes => decide (bytes.length ≤ programMax)

/-- The relations between fields that the spec promises of every state a run reaches. -/
structure StateInv (s : State) : Prop where
  /-- "PC always lies in [0, memory_size)" (R13). -/
  pc_below : s.pc.toNat < memSize
  /-- Memory is 4096 bytes in canonical form (R18; log 22). -/
  mem_wf : Memory.wf s.mem = true
  /-- The recorded image has at most 0xE00 bytes (R25). -/
  image_fits : imageFits s.image = true
  /-- The engine is `Idle` exactly when no image is recorded (R22, R25, R28). -/
  idle_iff : s.mode = .idle ↔ s.image = none

/-! ## What a step leaves alone -/

/-- Every memory byte reads the same in `s` and `t`. -/
def sameMemory (s t : State) : Prop := ∀ a : Nat, t.memRead a = s.memRead a

/-- Every register but those in `written` holds the same value in `s` and `t`. -/
def sameRegsBut (written : List Reg) (s t : State) : Prop := ∀ r : Reg, r ∉ written → t.reg r = s.reg r

/-- The stack, its entries and its depth are the same. -/
def sameStack (s t : State) : Prop := t.sp = s.sp ∧ t.stack = s.stack

/-- The framebuffer and `frame_dirty` are the same. -/
def sameDisplay (s t : State) : Prop := t.fb = s.fb ∧ t.frameDirty = s.frameDirty

/-- Both timers are the same. -/
def sameTimers (s t : State) : Prop := t.dt = s.dt ∧ t.st = s.st

/-- PC, I and the engine mode are the same. -/
def sameControl (s t : State) : Prop := t.pc = s.pc ∧ t.i = s.i ∧ t.mode = s.mode

/-- The random port is untouched: its ready answers and its count of requests. -/
def sameRandom (s t : State) : Prop := t.randIn = s.randIn ∧ t.randRequests = s.randRequests

/-- What no instruction writes: the configuration, the recorded image, the key level and the host's queue. -/
def sameOutside (s t : State) : Prop :=
  t.cfg = s.cfg ∧ t.image = s.image ∧ t.keysIn = s.keysIn ∧ t.hostQueue = s.hostQueue

/-- Everything but the registers is the same. -/
def sameButRegs (s t : State) : Prop :=
  sameControl s t ∧ sameMemory s t ∧ sameStack s t ∧ sameDisplay s t ∧ sameTimers s t ∧ sameRandom s t ∧ sameOutside s t

/-- From `s` to `t`, register `x` took the value `b` and nothing else changed. -/
def wrote (s t : State) (x : Reg) (b : Byte) : Prop := t.reg x = b ∧ sameRegsBut [x] s t ∧ sameButRegs s t

/-- From `s` to `t`, register `x` took the value `b`, VF the value `f`, and nothing else changed; when `x` is VF, the
second of the two writes stands, and `FLAG_ORDER` says which that is (42_alu.md R77). -/
def wroteWithFlag (s t : State) (x : Reg) (b f : Byte) : Prop :=
  (x ≠ regF → t.reg x = b ∧ t.reg regF = f)
    ∧ (x = regF → s.cfg.flagOrder = .flagThenResult → t.reg regF = b)
    ∧ (x = regF → s.cfg.flagOrder = .resultThenFlag → t.reg regF = f)
    ∧ sameRegsBut [x, regF] s t ∧ sameButRegs s t

/-- The next thing that happens in `s` is a tick, and `q` is what the host's queue then holds. -/
def ticksNext (s : State) (q : List HostCommand) : Prop :=
  (s.hostQueue = [] ∧ q = []) ∨ s.hostQueue = .tick :: q

/-- The instructions that may write PC beyond the tick's advance (41_control_flow.md; 44_timers_keys.md R98, R99). -/
def mayWritePc (i : Instr) : Bool :=
  match i with
  | .ret | .jump _ | .call _ | .jumpOffset _ | .skipIfEq _ _ | .skipIfNeq _ _ | .skipIfRegEq _ _ | .skipIfRegNeq _ _
  | .skipIfKey _ | .skipIfNotKey _ => true
  | .clear | .loadImm _ _ | .addImm _ _ | .mov _ _ | .or _ _ | .and _ _ | .xor _ _ | .add _ _ | .sub _ _ | .shr _ _
  | .subn _ _ | .shl _ _ | .loadIndex _ | .random _ _ | .draw _ _ _ | .getDelay _ | .waitForKey _ | .setDelay _
  | .setSound _ | .addIndex _ | .spriteAddr _ | .storeBcd _ | .storeRegs _ | .loadRegs _ | .sys _ | .reserved _ => false

/-- The registers an instruction may write: its destination, and VF for the operations R12 lists. `wait-for-key` writes
none in its own tick: the key-press event does (R100). -/
def regsWritten (i : Instr) : List Reg :=
  match i with
  | .loadImm x _ | .addImm x _ | .mov x _ | .or x _ | .and x _ | .xor x _ | .random x _ | .getDelay x => [x]
  | .add x _ | .sub x _ | .shr x _ | .subn x _ | .shl x _ => [x, regF]
  | .draw _ _ _ => [regF]
  | .loadRegs x => (List.finRange 16).filter (fun r => decide (r.val ≤ x.val))
  | .clear | .ret | .jump _ | .call _ | .skipIfEq _ _ | .skipIfNeq _ _ | .skipIfRegEq _ _ | .skipIfRegNeq _ _
  | .loadIndex _ | .jumpOffset _ | .skipIfKey _ | .skipIfNotKey _ | .waitForKey _ | .setDelay _ | .setSound _
  | .addIndex _ | .spriteAddr _ | .storeBcd _ | .storeRegs _ | .sys _ | .reserved _ => []

/-- The same change made to the state an outcome carries, if it carries one. -/
def mapNext (f : State → State) (o : Host.Outcome State Fault Refusal) : Host.Outcome State Fault Refusal :=
  match o with
  | .next t => .next (f t)
  | .fault r => .fault r
  | .refused r => .refused r

/-! ## Sprites, pixel by pixel -/

/-- The sprite of `n` rows at I, drawn with its top left at column `x0` and row `y0`, sets the pixel in row `py` and
column `px` (40_display.md R56 to R58). -/
def spritePixel (s : State) (y0 x0 n py px : Nat) : Bool :=
  decide (y0 ≤ py ∧ py < y0 + n ∧ x0 ≤ px ∧ px < x0 + 8)
    && (s.memRead (s.indexed (py - y0))).getLsbD (7 - (px - x0))

/-- A set sprite pixel on the canvas falls on a lit one (R59). -/
def collides (s : State) (y0 x0 n : Nat) : Prop :=
  ∃ py px : Nat, py < 32 ∧ px < 64 ∧ spritePixel s y0 x0 n py px = true ∧ pixelAt s.fb py px = true

end Sys2Proof.Machine
end

