-- ==== Sys2Proof/Certificates/Slice0/Obligations.lean ====
section
/-! DEFINITION. The statements for the provers. `exec i s` is the execute phase of a tick: `s.pc` already holds the
address of the instruction plus 2 (10_state.md R14; log 24). Every state is quantified over with its configuration, so
each statement holds for every value of the open parameters of 00_scope.md R7 unless it names one (log 1). A docstring
that names a decision D<n> or a log entry marks a clause that is the spec's own choice or the model's, not the source's. -/

open Sys2Proof Sys2Proof.Machine

/-! ## Encoding -/

/-- Every well-formed instruction is read back from its word and from its two bytes (30_encoding.md sections 2 and 3).
The 8XY nibbles are decision D7 (log 6), the reserved words decision D6 (log 5), the byte order decision D1 (log 2). -/
def Obligations.DecodeOfEncodeIsTheInstruction : Prop :=
  ∀ i : Instr, i.wellFormed = true → decode (encode i) = i ∧ decodeBytes (encodeBytes i) = .ok (i, [])

/-- Every one of the 65536 words decodes to a well-formed instruction whose encoding is that word, so no word is lost
and none has two meanings (30_encoding.md R48, R51; decisions D6, D7). -/
def Obligations.EncodeOfDecodeIsTheWord : Prop :=
  ∀ w : Word, (decode w).wellFormed = true ∧ encode (decode w) = w

/-- The decoded instruction's row of spec/opcode_table.json matches the word, and every other row that matches it has a
higher priority number (30_encoding.md R48, whose reserved rows are decision D6). -/
def Obligations.DecodedRowIsTheUniqueMatch : Prop :=
  ∀ w : Word,
    opcodeRow (decode w) ∈ opcodeTable ∧ (opcodeRow (decode w)).matchesWord w = true
      ∧ ∀ r ∈ opcodeTable, r.matchesWord w = true →
          r = opcodeRow (decode w) ∨ (opcodeRow (decode w)).priority < r.priority

/-- R45: the six fields of a word, as numbers. -/
def Obligations.OperandFieldsAreTheBitsOfTheWord : Prop :=
  ∀ w : Word,
    (fieldOp w).toNat = w.toNat / 0x1000 ∧ (fieldNNN w).toNat = w.toNat % 0x1000 ∧ (fieldNN w).toNat = w.toNat % 0x100
      ∧ (fieldN w).toNat = w.toNat % 0x10 ∧ (fieldX w).val = w.toNat / 0x100 % 0x10
      ∧ (fieldY w).val = w.toNat / 0x10 % 0x10

/-- Words the spec itself reads: 30_encoding.md R49 and R53, 95_test_vectors.md S1, DEC4 to DEC12 (decisions D6, D7). -/
def Obligations.SampleWordsDecodeAsTheSpecReadsThem : Prop :=
  decode 0x6A05 = .loadImm 0xA 0x05 ∧ decode 0x1200 = .jump 0x200 ∧ decode 0x00E0 = .clear ∧ decode 0x00EE = .ret
    ∧ decode 0x00E1 = .sys 0x0E1 ∧ decode 0x5121 = .reserved 0x5121 ∧ decode 0x8AB4 = .add 0xA 0xB
    ∧ decode 0x8128 = .reserved 0x8128 ∧ decode 0xD12F = .draw 1 2 0xF ∧ decode 0xB123 = .jumpOffset 0x123
    ∧ decode 0xE29E = .skipIfKey 2 ∧ decode 0xE19F = .reserved 0xE19F ∧ decode 0xF165 = .loadRegs 1
    ∧ decode 0xFFFF = .reserved 0xFFFF

/-! ## Memory and fetch -/

/-- A written byte is read back at every address equal to it modulo 4096, every other byte reads as before, and memory
stays in canonical form (20_memory.md R33, R38; the wrap is decision D3, log 3; the form is the model's, log 22). -/
def Obligations.ByteWriteChangesThatByteAlone : Prop :=
  ∀ (s : State) (a a' : Nat) (b : Byte), Memory.wf s.mem = true →
    (s.memWrite a b).memRead a' = (if a' % 0x1000 = a % 0x1000 then b else s.memRead a')
      ∧ Memory.wf (s.memWrite a b).mem = true

/-- The fetched word is `mem[PC] * 256 + mem[(PC + 1) mod 4096]` (20_memory.md R34; decisions D1 and D2, log 2). -/
def Obligations.FetchIsMostSignificantByteFirst : Prop :=
  ∀ s : State,
    s.fetchWord.toNat = 256 * (s.memRead s.pc.toNat).toNat + (s.memRead ((s.pc.toNat + 1) % 0x1000)).toNat

/-- A byte that `store-regs` puts where PC points is the first byte of the next fetch (20_memory.md R41 and
70_reset_and_hazards.md R133, both derived by the spec): self-modifying code takes effect at once. That the two addresses
are compared modulo 4096, so that a block running past 0xFFF goes on at 0x000, is decision D3 (log 3); that the byte at PC
is the most significant of the word is decision D1 (log 2). -/
def Obligations.StoredByteIsSeenByTheNextFetch : Prop :=
  ∀ (s t : State) (x r : Reg), Memory.wf s.mem = true → exec (.storeRegs x) s = .next t → r ≤ x →
    s.pc.toNat % 0x1000 = s.indexed r.val % 0x1000 → highByte t.fetchWord = s.reg r

/-! ## What an instruction leaves alone -/

/-- Every byte of memory keeps its value over every instruction but `store-bcd` and `store-regs` (20_memory.md R30). -/
def Obligations.OnlyStoresChangeMemory : Prop :=
  ∀ (i : Instr) (s t : State), (∀ x, i ≠ .storeBcd x) → (∀ x, i ≠ .storeRegs x) → exec i s = .next t → sameMemory s t

/-- No instruction but `draw`, `store-bcd`, `store-regs` and `load-regs` reaches memory: with another memory it does the
same, and that memory stays (20_memory.md R30). -/
def Obligations.OnlyFourOperationsReachMemory : Prop :=
  ∀ (i : Instr) (s : State) (m : Memory),
    (∀ x y n, i ≠ .draw x y n) → (∀ x, i ≠ .storeBcd x) → (∀ x, i ≠ .storeRegs x) → (∀ x, i ≠ .loadRegs x) →
    exec i { s with mem := m } = mapNext (fun t => { t with mem := m }) (exec i s)

/-- Every register but the named destination keeps its value, and VF is written besides by `add`, `sub`, `shr`, `subn`,
`shl` and `draw` alone (10_state.md R12, derived by the spec). -/
def Obligations.OnlyNamedRegistersAreWritten : Prop :=
  ∀ (i : Instr) (s t : State), exec i s = .next t → sameRegsBut (regsWritten i) s t

/-- The stack is touched by `call` and `return` alone, the framebuffer and `frame_dirty` by `clear` and `draw` alone, I
by `load-index`, `add-index` and `sprite-addr` alone (10_state.md R15, R16, R19, R20). That no other instruction clears
`frame_dirty` is decision D17 (log 15), and that `store-regs` and `load-regs` leave I alone is decision D14 (log 14). -/
def Obligations.StackDisplayAndIndexHaveTheirOwnWriters : Prop :=
  ∀ (i : Instr) (s t : State), exec i s = .next t →
    (i ≠ .ret → (∀ a, i ≠ .call a) → sameStack s t)
      ∧ (i ≠ .clear → (∀ x y n, i ≠ .draw x y n) → sameDisplay s t)
      ∧ ((∀ a, i ≠ .loadIndex a) → (∀ x, i ≠ .addIndex x) → (∀ x, i ≠ .spriteAddr x) → t.i = s.i)

/-- PC is written by jumps, calls, returns and skips alone, the mode by `wait-for-key` alone, the random port is used by
`random` alone, and no instruction touches the configuration, the recorded image, the key level or the host's queue
(10_state.md R14, R22, R23, R25, R26; the placement of the inputs is the model's, logs 1, 18, 19, 20). -/
def Obligations.PcModeAndInputsHaveTheirOwnWriters : Prop :=
  ∀ (i : Instr) (s t : State), exec i s = .next t →
    (mayWritePc i = false → t.pc = s.pc) ∧ ((∀ x, i ≠ .waitForKey x) → t.mode = s.mode)
      ∧ ((∀ x nn, i ≠ .random x nn) → sameRandom s t) ∧ sameOutside s t

/-- R21: DT is written by `set-delay` and read by `get-delay`, ST is written by `set-sound` and read by no instruction,
both are zero after reset, and the timer step takes one off each without going below zero. -/
def Obligations.TimersAreWrittenAndReadByTheirOwnInstructions : Prop :=
  (∀ (i : Instr) (s t : State), exec i s = .next t →
      ((∀ x, i ≠ .setDelay x) → t.dt = s.dt) ∧ ((∀ x, i ≠ .setSound x) → t.st = s.st))
    ∧ (∀ (x : Reg) (s : State), ∃ t, exec (.setDelay x) s = .next t ∧ t.dt = s.reg x)
    ∧ (∀ (x : Reg) (s : State), ∃ t, exec (.setSound x) s = .next t ∧ t.st = s.reg x)
    ∧ (∀ (x : Reg) (s : State), ∃ t, exec (.getDelay x) s = .next t ∧ t.reg x = s.dt)
    ∧ (∀ (i : Instr) (s : State) (b : Byte), (∀ x, i ≠ .setDelay x) → (∀ x, i ≠ .getDelay x) →
        exec i { s with dt := b } = mapNext (fun t => { t with dt := b }) (exec i s))
    ∧ (∀ (i : Instr) (s : State) (b : Byte), (∀ x, i ≠ .setSound x) →
        exec i { s with st := b } = mapNext (fun t => { t with st := b }) (exec i s))
    ∧ (∀ (x : Reg) (s : State) (b : Byte), exec (.setDelay x) { s with dt := b } = exec (.setDelay x) s)
    ∧ (∀ (x : Reg) (s : State) (b : Byte), exec (.setSound x) { s with st := b } = exec (.setSound x) s)
    ∧ (∀ s : State, s.timerStep.dt.toNat = s.dt.toNat - 1 ∧ s.timerStep.st.toNat = s.st.toNat - 1)
    ∧ State.reset.dt = 0x00 ∧ State.reset.st = 0x00

/-- No instruction reads `frame_dirty` or `mode`, and only the two key skips read the key level (10_state.md R20, R22;
60_exceptions.md R116; decisions D15, D17, D18, D26): with another value an instruction does the same, and leaves that
value unless it is the writer. -/
def Obligations.DirtyFlagModeAndKeysAreNotReadElsewhere : Prop :=
  (∀ (i : Instr) (s : State) (d : Bool), i ≠ .clear → (∀ x y n, i ≠ .draw x y n) →
      exec i { s with frameDirty := d } = mapNext (fun t => { t with frameDirty := d }) (exec i s))
    ∧ (∀ (s : State) (d : Bool), exec .clear { s with frameDirty := d } = exec .clear s)
    ∧ (∀ (x y : Reg) (n : Nibble) (s : State) (d : Bool),
        exec (.draw x y n) { s with frameDirty := d } = exec (.draw x y n) s)
    ∧ (∀ (i : Instr) (s : State) (m : Mode), (∀ x, i ≠ .waitForKey x) →
        exec i { s with mode := m } = mapNext (fun t => { t with mode := m }) (exec i s))
    ∧ (∀ (x : Reg) (s : State) (m : Mode), exec (.waitForKey x) { s with mode := m } = exec (.waitForKey x) s)
    ∧ (∀ (i : Instr) (s : State) (k : BitVec 16), (∀ x, i ≠ .skipIfKey x) → (∀ x, i ≠ .skipIfNotKey x) →
        exec i { s with keysIn := k } = mapNext (fun t => { t with keysIn := k }) (exec i s))

/-! ## Display -/

/-- R55: `clear` unlights all 2048 pixels, sets `frame_dirty`, and changes nothing else. -/
def Obligations.ClearUnlightsEveryPixel : Prop :=
  decode 0x00E0 = .clear ∧ ∀ s : State, ∃ t, exec .clear s = .next t
    ∧ (∀ y x, y < 32 → x < 64 → pixelAt t.fb y x = false) ∧ t.frameDirty = true
    ∧ sameRegsBut [] s t ∧ sameControl s t ∧ sameMemory s t ∧ sameStack s t ∧ sameTimers s t ∧ sameRandom s t
    ∧ sameOutside s t

/-- `draw` XORs the sprite into the framebuffer pixel by pixel, from the origin `(V[x] mod 64, V[y] mod 32)`; VF is 1
exactly when a set sprite pixel on the canvas meets a lit one, `frame_dirty` is set, and nothing else changes
(40_display.md R56 to R60; the bit order, the clipped pixels and `n = 0` are decision D11, log 10). -/
def Obligations.DrawXorsTheSpritePixelByPixel : Prop :=
  ∀ (x y : Reg) (n : Nibble) (s : State), ∃ t, exec (.draw x y n) s = .next t
    ∧ (∀ py px, py < 32 → px < 64 →
        pixelAt t.fb py px =
          xor (pixelAt s.fb py px)
            (spritePixel s ((s.reg y).toNat % 32) ((s.reg x).toNat % 64) n.toNat py px))
    ∧ (collides s ((s.reg y).toNat % 32) ((s.reg x).toNat % 64) n.toNat → t.reg regF = 0x01)
    ∧ (¬ collides s ((s.reg y).toNat % 32) ((s.reg x).toNat % 64) n.toNat → t.reg regF = 0x00)
    ∧ t.frameDirty = true ∧ sameRegsBut [regF] s t ∧ sameControl s t ∧ sameMemory s t ∧ sameStack s t
    ∧ sameTimers s t ∧ sameRandom s t ∧ sameOutside s t

/-- Two draws of one sprite at one origin restore every pixel, and the second sets VF to 1 exactly when a set sprite
pixel on the canvas fell on a pixel that was unlit before the first (40_display.md R61, derived by the spec; clipping is
decision D11). R61 gives that VF clause without "unlit before the first"; by R59 and R60 it needs it, as case d of
95_test_vectors.md S3 shows, and from a clear framebuffer the two readings agree (log 27). The second draw may name other
registers, as long as they hold the same origin. -/
def Obligations.DrawTwiceRestoresTheFramebuffer : Prop :=
  ∀ (x y x' y' : Reg) (n : Nibble) (s t u : State), exec (.draw x y n) s = .next t → exec (.draw x' y' n) t = .next u →
    (t.reg x').toNat % 64 = (s.reg x).toNat % 64 → (t.reg y').toNat % 32 = (s.reg y).toNat % 32 →
    (∀ py px, py < 32 → px < 64 → pixelAt u.fb py px = pixelAt s.fb py px)
      ∧ (u.reg regF = 0x00 ∨ u.reg regF = 0x01)
      ∧ (u.reg regF = 0x01 ↔ ∃ py px, py < 32 ∧ px < 64
            ∧ spritePixel s ((s.reg y).toNat % 32) ((s.reg x).toNat % 64) n.toNat py px = true
            ∧ pixelAt s.fb py px = false)

/-- R62: the display gets the framebuffer only when a dirty frame is signalled, and then all 2048 pixels, row-major. -/
def Obligations.DisplayGetsTheWholeFrameWhenDirty : Prop :=
  ∀ s : State, (fbOut s).length = 2048
    ∧ (∀ y x, y < 32 → x < 64 → (fbOut s)[y * 64 + x]? = some (pixelAt s.fb y x))
    ∧ (s.frameDirty = true → displayFrame s = some (fbOut s)) ∧ (s.frameDirty = false → displayFrame s = none)

/-! ## Control flow -/

/-- R65: `return` takes the newest stack entry into PC modulo 4096; on an empty stack nothing changes. -/
def Obligations.ReturnPopsTheNewestEntryIntoPc : Prop :=
  decode 0x00EE = .ret
    ∧ (∀ s : State, s.sp.val = 0 → exec .ret s = .next s)
    ∧ (∀ (s : State) (w : Word), 0 < s.sp.val → s.stack[s.sp.val - 1]? = some w → ∃ t, exec .ret s = .next t
        ∧ t.pc.toNat = w.toNat % 0x1000 ∧ t.sp.val + 1 = s.sp.val
        ∧ (∀ k, k < t.sp.val → t.stack[k]? = s.stack[k]?)
        ∧ sameRegsBut [] s t ∧ t.i = s.i ∧ t.mode = s.mode ∧ sameMemory s t ∧ sameDisplay s t ∧ sameTimers s t
        ∧ sameRandom s t ∧ sameOutside s t)

/-- R66: `call` pushes PC and jumps; on a full stack the whole call changes nothing. -/
def Obligations.CallPushesPcAndJumps : Prop :=
  ∀ (nnn : Addr) (s : State), decode (0x2#4 ++ nnn : Word) = .call nnn
    ∧ (s.sp.val = 16 → exec (.call nnn) s = .next s)
    ∧ (s.sp.val < 16 → ∃ t, exec (.call nnn) s = .next t
        ∧ t.pc.toNat = nnn.toNat ∧ t.sp.val = s.sp.val + 1 ∧ t.stack[s.sp.val]? = some s.pc
        ∧ (∀ k, k ≠ s.sp.val → t.stack[k]? = s.stack[k]?)
        ∧ sameRegsBut [] s t ∧ t.i = s.i ∧ t.mode = s.mode ∧ sameMemory s t ∧ sameDisplay s t ∧ sameTimers s t
        ∧ sameRandom s t ∧ sameOutside s t)

/-- A `return` after a `call` goes back to the word after the call, whatever ran between, as long as it left the stack
as it found it (41_control_flow.md R65, R66). -/
def Obligations.ReturnAfterCallComesBack : Prop :=
  ∀ (nnn : Addr) (s t u : State), s.pc.toNat < 0x1000 → s.sp.val < 16 → exec (.call nnn) s = .next t → sameStack t u →
    ∃ v, exec .ret u = .next v ∧ v.pc = s.pc ∧ v.sp = s.sp

/-- R67 and R68: `jump` sets PC to the 12-bit address, `jump-offset` to its sum with V0 modulo 4096; nothing else
changes. -/
def Obligations.JumpsSetPc : Prop :=
  ∀ (nnn : Addr) (s : State),
    decode (0x1#4 ++ nnn : Word) = .jump nnn ∧ decode (0xB#4 ++ nnn : Word) = .jumpOffset nnn
      ∧ exec (.jump nnn) s = .next { s with pc := nnn.setWidth 16 }
      ∧ exec (.jumpOffset nnn) s = .next { s with pc := BitVec.ofNat 16 ((nnn.toNat + (s.reg 0).toNat) % 0x1000) }

/-- R69 and R70: a skip on an immediate moves PC 2 bytes on (modulo 4096) if its condition holds, and changes nothing
otherwise. -/
def Obligations.SkipsOnAnImmediate : Prop :=
  ∀ (x : Reg) (nn : Byte) (s : State),
    decode (0x3#4 ++ regBits x ++ nn : Word) = .skipIfEq x nn
      ∧ decode (0x4#4 ++ regBits x ++ nn : Word) = .skipIfNeq x nn
      ∧ (s.reg x = nn → exec (.skipIfEq x nn) s = .next { s with pc := BitVec.ofNat 16 ((s.pc.toNat + 2) % 0x1000) }
          ∧ exec (.skipIfNeq x nn) s = .next s)
      ∧ (s.reg x ≠ nn → exec (.skipIfEq x nn) s = .next s
          ∧ exec (.skipIfNeq x nn) s = .next { s with pc := BitVec.ofNat 16 ((s.pc.toNat + 2) % 0x1000) })

/-- A skip on two registers moves PC 2 bytes on if its condition holds, and changes nothing otherwise
(41_control_flow.md R63, R71, R72; that only the words with low nibble 0 are these skips is decision D6, log 5). -/
def Obligations.SkipsOnTwoRegisters : Prop :=
  ∀ (x y : Reg) (s : State),
    decode (0x5#4 ++ regBits x ++ regBits y ++ 0x0#4 : Word) = .skipIfRegEq x y
      ∧ decode (0x9#4 ++ regBits x ++ regBits y ++ 0x0#4 : Word) = .skipIfRegNeq x y
      ∧ (s.reg x = s.reg y →
          exec (.skipIfRegEq x y) s = .next { s with pc := BitVec.ofNat 16 ((s.pc.toNat + 2) % 0x1000) }
            ∧ exec (.skipIfRegNeq x y) s = .next s)
      ∧ (s.reg x ≠ s.reg y → exec (.skipIfRegEq x y) s = .next s
          ∧ exec (.skipIfRegNeq x y) s = .next { s with pc := BitVec.ofNat 16 ((s.pc.toNat + 2) % 0x1000) })

/-- `sys` and `reserved` change nothing under `RESERVED_POLICY = nop` and are refused under `refuse` (41_control_flow.md
R73; decision D6, log 5), and a word that no listed row of the table matches decodes to one of the two, with its own bits
(the converse follows from `DecodedRowIsTheUniqueMatch`). -/
def Obligations.ReservedWordsDoNothingOrAreRefused : Prop :=
  (∀ (nnn : Addr) (s : State),
      (s.cfg.reservedPolicy = .nop → exec (.sys nnn) s = .next s)
        ∧ (s.cfg.reservedPolicy = .refuse → exec (.sys nnn) s = .refused (.reservedWord (0x0#4 ++ nnn))))
    ∧ (∀ (w : Word) (s : State),
      (s.cfg.reservedPolicy = .nop → exec (.reserved w) s = .next s)
        ∧ (s.cfg.reservedPolicy = .refuse → exec (.reserved w) s = .refused (.reservedWord w)))
    ∧ ∀ w : Word, (∀ r ∈ opcodeTable, r.priority = 0 → r.matchesWord w = false) →
        (∃ nnn, decode w = .sys nnn ∧ w = 0x0#4 ++ nnn) ∨ decode w = .reserved w

/-! ## ALU -/

/-- R78 and R79: `load-imm` and `add-imm` (modulo 256, no flag) write their register and nothing else. -/
def Obligations.ImmediateOperationsWriteTheirRegister : Prop :=
  ∀ (x : Reg) (nn : Byte) (s : State),
    decode (0x6#4 ++ regBits x ++ nn : Word) = .loadImm x nn ∧ decode (0x7#4 ++ regBits x ++ nn : Word) = .addImm x nn
      ∧ (∃ t, exec (.loadImm x nn) s = .next t ∧ wrote s t x nn)
      ∧ (∃ t, exec (.addImm x nn) s = .next t ∧ wrote s t x (BitVec.ofNat 8 (((s.reg x).toNat + nn.toNat) % 256)))

/-- `mov`, `or`, `and` and `xor` write their destination and nothing else, VF included (42_alu.md R80 to R83; the
direction of `mov` is decision D8, log 7). -/
def Obligations.MoveAndLogicWriteTheirRegister : Prop :=
  ∀ (x y : Reg) (s : State),
    (∃ t, exec (.mov x y) s = .next t ∧ wrote s t x (s.reg y))
      ∧ (∃ t, exec (.or x y) s = .next t ∧ wrote s t x (s.reg x ||| s.reg y))
      ∧ (∃ t, exec (.and x y) s = .next t ∧ wrote s t x (s.reg x &&& s.reg y))
      ∧ (∃ t, exec (.xor x y) s = .next t ∧ wrote s t x (s.reg x ^^^ s.reg y))

/-- `add` writes the sum modulo 256 and, to VF, whether the exact sum is above 0xFF, in the order `FLAG_ORDER` gives
(42_alu.md R74, R76, R77, R84; decision D10, log 9). -/
def Obligations.AddWritesSumAndCarry : Prop :=
  ∀ (x y : Reg) (s : State), ∃ t, exec (.add x y) s = .next t
    ∧ wroteWithFlag s t x (BitVec.ofNat 8 (((s.reg x).toNat + (s.reg y).toNat) % 256))
        (if (s.reg x).toNat + (s.reg y).toNat > 0xFF then 0x01 else 0x00)

/-- `sub` writes `VX - VY` and `subn` writes `VY - VX`, both modulo 256, and to VF whether the minuend is at least the
subtrahend (42_alu.md R74, R76, R77, R85, R87; the directions are decision D8, log 7; the order decision D10, log 9). -/
def Obligations.SubtractionsWriteDifferenceAndNoBorrow : Prop :=
  ∀ (x y : Reg) (s : State),
    (∃ t, exec (.sub x y) s = .next t
      ∧ wroteWithFlag s t x (BitVec.ofNat 8 ((256 + (s.reg x).toNat - (s.reg y).toNat) % 256))
          (if (s.reg x).toNat ≥ (s.reg y).toNat then 0x01 else 0x00))
    ∧ (∃ t, exec (.subn x y) s = .next t
      ∧ wroteWithFlag s t x (BitVec.ofNat 8 ((256 + (s.reg y).toNat - (s.reg x).toNat) % 256))
          (if (s.reg y).toNat ≥ (s.reg x).toNat then 0x01 else 0x00))

/-- `shr` and `shl` shift VX by one and write to VF the bit shifted out, whatever VY holds (42_alu.md R76, R77, R86,
R88; that VY is not used is decision D9, log 8; the order decision D10, log 9). -/
def Obligations.ShiftsWriteResultAndShiftedOutBit : Prop :=
  ∀ (x y : Reg) (s : State),
    (∃ t, exec (.shr x y) s = .next t
      ∧ wroteWithFlag s t x (BitVec.ofNat 8 ((s.reg x).toNat / 2)) (BitVec.ofNat 8 ((s.reg x).toNat % 2)))
    ∧ (∃ t, exec (.shl x y) s = .next t
      ∧ wroteWithFlag s t x (BitVec.ofNat 8 (2 * (s.reg x).toNat % 256)) (BitVec.ofNat 8 ((s.reg x).toNat / 128)))

/-- `add` then `sub` of the same two registers restores VX, and VF then holds 1 exactly when the addition did not carry
(95_test_vectors.md S2 as 90_conflicts.md C14 reads it). -/
def Obligations.AddThenSubRestoresTheRegister : Prop :=
  ∀ (x y : Reg) (s t u : State), x ≠ regF → y ≠ regF → x ≠ y → exec (.add x y) s = .next t →
    exec (.sub x y) t = .next u →
    u.reg x = s.reg x ∧ (u.reg regF = 0x01 ↔ t.reg regF = 0x00) ∧ sameRegsBut [regF] s u

/-- `random` makes one request, masks the byte with `nn` into VX, and changes nothing else (42_alu.md R89,
60_exceptions.md R118; decision D22). The byte is the one the port has ready, else a free value (log 18): nothing is
said of which. -/
def Obligations.RandomMasksOneRequestedByte : Prop :=
  ∀ (x : Reg) (nn : Byte) (s : State),
    decode (0xC#4 ++ regBits x ++ nn : Word) = .random x nn
      ∧ (∃ t, exec (.random x nn) s = .next t ∧ t.reg x = s.nextRandom &&& nn ∧ t.randRequests = s.randRequests + 1
          ∧ t.randIn = s.randIn.tail ∧ sameRegsBut [x] s t ∧ sameControl s t ∧ sameMemory s t ∧ sameStack s t
          ∧ sameDisplay s t ∧ sameTimers s t ∧ sameOutside s t)
      ∧ (∀ b rest, s.randIn = b :: rest → s.nextRandom = b)

/-! ## Index and memory -/

/-- R90: `load-index` puts the 12-bit address in I and changes nothing else. -/
def Obligations.LoadIndexPutsTheAddressInI : Prop :=
  ∀ (nnn : Addr) (s : State), decode (0xA#4 ++ nnn : Word) = .loadIndex nnn
    ∧ exec (.loadIndex nnn) s = .next { s with i := BitVec.ofNat 16 nnn.toNat }

/-- `add-index` adds VX to I modulo 65536 without a flag, `sprite-addr` puts the glyph address of VX's low nibble in I,
and nothing else changes (43_index_memory.md R91, R92; decisions D4 and D13, logs 4 and 12). -/
def Obligations.IndexArithmeticWritesIAlone : Prop :=
  ∀ (x : Reg) (s : State),
    exec (.addIndex x) s = .next { s with i := BitVec.ofNat 16 ((s.i.toNat + (s.reg x).toNat) % 65536) }
      ∧ exec (.spriteAddr x) s =
          .next { s with i := BitVec.ofNat 16 ((s.cfg.fontBase.toNat + 5 * ((s.reg x).toNat % 16)) % 65536) }

/-- R93: `store-bcd` writes hundreds, tens and ones at I, I + 1 and I + 2; every other byte and every other part of the
state is unchanged. -/
def Obligations.StoreBcdWritesThreeDigits : Prop :=
  ∀ (x : Reg) (s : State), decode (0xF#4 ++ regBits x ++ 0x33#8 : Word) = .storeBcd x
    ∧ (Memory.wf s.mem = true → ∃ t, exec (.storeBcd x) s = .next t
        ∧ (t.memRead (s.indexed 0)).toNat = (s.reg x).toNat / 100
        ∧ (t.memRead (s.indexed 1)).toNat = (s.reg x).toNat / 10 % 10
        ∧ (t.memRead (s.indexed 2)).toNat = (s.reg x).toNat % 10
        ∧ (∀ a : Nat, (∀ k, k < 3 → a % memSize ≠ s.indexed k % memSize) → t.memRead a = s.memRead a)
        ∧ sameRegsBut [] s t ∧ sameControl s t ∧ sameStack s t ∧ sameDisplay s t ∧ sameTimers s t ∧ sameRandom s t
        ∧ sameOutside s t)

/-- `store-regs` writes V0 to VX at I to I + X; every other byte and every other part of the state, I included, is
unchanged (43_index_memory.md R94; decision D14, log 14; the wrap is decision D3). -/
def Obligations.StoreRegsWritesTheRegisterBlock : Prop :=
  ∀ (x : Reg) (s : State), Memory.wf s.mem = true → ∃ t, exec (.storeRegs x) s = .next t
    ∧ (∀ r : Reg, r ≤ x → t.memRead (s.indexed r.val) = s.reg r)
    ∧ (∀ a : Nat, (∀ r : Reg, r ≤ x → a % memSize ≠ s.indexed r.val % memSize) → t.memRead a = s.memRead a)
    ∧ sameRegsBut [] s t ∧ sameControl s t ∧ sameStack s t ∧ sameDisplay s t ∧ sameTimers s t ∧ sameRandom s t
    ∧ sameOutside s t

/-- `load-regs` reads V0 to VX from I to I + X; the registers above VX and everything else, I included, are unchanged
(43_index_memory.md R95; decision D14, log 14; the wrap is decision D3). -/
def Obligations.LoadRegsReadsTheRegisterBlock : Prop :=
  ∀ (x : Reg) (s : State), ∃ t, exec (.loadRegs x) s = .next t
    ∧ (∀ r : Reg, r ≤ x → t.reg r = s.memRead (s.indexed r.val)) ∧ (∀ r : Reg, x < r → t.reg r = s.reg r)
    ∧ sameButRegs s t

/-- `load-regs` after `store-regs` brings back V0 to VX, whatever ran between, as long as it left I and the stored bytes
as they were (43_index_memory.md R96, derived by the spec). -/
def Obligations.LoadRegsAfterStoreRegsRestoresThem : Prop :=
  ∀ (x : Reg) (s t u v : State), Memory.wf s.mem = true → exec (.storeRegs x) s = .next t → u.i = t.i →
    (∀ r : Reg, r ≤ x → u.memRead (s.indexed r.val) = t.memRead (s.indexed r.val)) → exec (.loadRegs x) u = .next v →
    ∀ r : Reg, r ≤ x → v.reg r = s.reg r

/-! ## Keys and timers -/

/-- The key skips act on the key the low nibble of VX names, or, under `never_pressed`, on no key when VX is above 0x0F
(44_timers_keys.md R97 to R99; decisions D12 and D26, logs 11 and 19). -/
def Obligations.KeySkipsFollowTheKeyLevel : Prop :=
  ∀ (x : Reg) (s : State) (pressed : Bool),
    (s.cfg.keyIndexPolicy = .lowNibble → pressed = s.keysIn.getLsbD ((s.reg x).toNat % 16)) →
    (s.cfg.keyIndexPolicy = .neverPressed →
      pressed = if (s.reg x).toNat > 0x0F then false else s.keysIn.getLsbD (s.reg x).toNat) →
    (pressed = true →
        exec (.skipIfKey x) s = .next { s with pc := BitVec.ofNat 16 ((s.pc.toNat + 2) % 0x1000) }
          ∧ exec (.skipIfNotKey x) s = .next s)
      ∧ (pressed = false → exec (.skipIfKey x) s = .next s
          ∧ exec (.skipIfNotKey x) s = .next { s with pc := BitVec.ofNat 16 ((s.pc.toNat + 2) % 0x1000) })

/-- `wait-for-key` changes the mode alone; the key press that ends it comes later (44_timers_keys.md R100; decision D15,
log 13). -/
def Obligations.WaitForKeyEntersTheWait : Prop :=
  ∀ (x : Reg) (s : State), decode (0xF#4 ++ regBits x ++ 0x0A#8 : Word) = .waitForKey x
    ∧ exec (.waitForKey x) s = .next { s with mode := .awaitingKey x }

/-- A key press ends a wait: the key goes to the register the wait names, the mode becomes `Running`, and nothing else
changes; outside a wait a key press changes nothing (44_timers_keys.md R100, 60_exceptions.md R117; decision D15,
log 13). -/
def Obligations.KeyPressEndsTheWait : Prop :=
  ∀ (s : State) (k : Key) (q : List HostCommand), s.hostQueue = .keyPress k :: q →
    (∀ x : Reg, s.mode = .awaitingKey x → ∃ t, step s = .next t ∧ (t.reg x).toNat = k.val ∧ t.mode = .running
        ∧ sameRegsBut [x] s t ∧ t.pc = s.pc ∧ t.i = s.i ∧ sameMemory s t ∧ sameStack s t ∧ sameDisplay s t
        ∧ sameTimers s t ∧ sameRandom s t ∧ t.cfg = s.cfg ∧ t.image = s.image ∧ t.keysIn = s.keysIn ∧ t.hostQueue = q)
      ∧ ((∀ x : Reg, s.mode ≠ .awaitingKey x) → step s = .next { s with hostQueue := q })

/-- R101, R102 and R103: `get-delay`, `set-delay` and `set-sound`, with the timer step that ends their tick: the
register gets DT as it stood before the step, and a timer written `v` holds `v - 1` (or 0) when the tick ends. -/
def Obligations.TimerInstructionsAndTheirTick : Prop :=
  ∀ (x : Reg) (s : State),
    decode (0xF#4 ++ regBits x ++ 0x07#8 : Word) = .getDelay x
      ∧ decode (0xF#4 ++ regBits x ++ 0x15#8 : Word) = .setDelay x
      ∧ decode (0xF#4 ++ regBits x ++ 0x18#8 : Word) = .setSound x
      ∧ (∃ t, exec (.getDelay x) s = .next t ∧ wrote s t x s.dt)
      ∧ (∃ u, finishTick (exec (.getDelay x) s) = .next u ∧ u.reg x = s.dt ∧ u.dt.toNat = s.dt.toNat - 1)
      ∧ exec (.setDelay x) s = .next { s with dt := s.reg x }
      ∧ (∃ u, finishTick (exec (.setDelay x) s) = .next u ∧ u.dt.toNat = (s.reg x).toNat - 1)
      ∧ exec (.setSound x) s = .next { s with st := s.reg x }
      ∧ (∃ u, finishTick (exec (.setSound x) s) = .next u ∧ u.st.toNat = (s.reg x).toNat - 1)

/-! ## The tick and the host's commands -/

/-- When the mode is `Running`, a tick is next and the bytes at PC and PC + 1 are those of the instruction `i`, the step
runs `exec i` with PC moved 2 bytes on and then takes one off each timer that is above zero (30_encoding.md R42;
decisions D15, D16, D18; that the host's queue holds the ticks is the model's, log 20). -/
def Obligations.StepRunsTheDecodedInstruction : Prop :=
  ∀ (s : State) (i : Instr) (q : List HostCommand), s.mode = .running → ticksNext s q →
    decodeBytes [s.memRead s.pc.toNat, s.memRead (s.pc.toNat + 1)] = .ok (i, []) →
    i.wellFormed = true
      ∧ (∀ t, exec i { s with hostQueue := q, pc := BitVec.ofNat 16 ((s.pc.toNat + 2) % 0x1000) } = .next t →
          step s = .next { t with
            dt := if t.dt = 0x00 then 0x00 else t.dt - 1
            st := if t.st = 0x00 then 0x00 else t.st - 1 })
      ∧ (∀ r, exec i { s with hostQueue := q, pc := BitVec.ofNat 16 ((s.pc.toNat + 2) % 0x1000) } = .refused r →
          step s = .refused r)

/-- A tick in `Idle` changes nothing, and a tick in `AwaitingKey` fetches and runs nothing: it steps the timers, or not,
as `TIMERS_WHILE_WAITING` says (30_encoding.md R42, 60_exceptions.md R111, R123, 70_reset_and_hazards.md R128; decisions
D16 and D18, logs 13 and 17). -/
def Obligations.TicksOutsideRunningRunNoInstruction : Prop :=
  ∀ (s : State) (q : List HostCommand), ticksNext s q →
    (s.mode = .idle → step s = .next { s with hostQueue := q })
      ∧ (∀ x : Reg, s.mode = .awaitingKey x →
          (s.cfg.timersWhileWaiting = .hold → step s = .next { s with hostQueue := q })
            ∧ (s.cfg.timersWhileWaiting = .decrement → step s = .next { s with
                hostQueue := q
                dt := BitVec.ofNat 8 (s.dt.toNat - 1)
                st := BitVec.ofNat 8 (s.st.toNat - 1) }))

/-- The host's reset puts every register, the stack, the pixels, the timers and `frame_dirty` to zero and PC to 0x200,
makes the mode `Running` exactly when an image is recorded, and leaves the image, the parameters and the inputs alone
(10_state.md R28, 70_reset_and_hazards.md R125, R127; decisions D13, D17, D19, D20, D22, log 17). -/
def Obligations.ResetCommandPutsTheResetValues : Prop :=
  ∀ (s : State) (q : List HostCommand), s.hostQueue = .reset :: q → ∃ t, step s = .next t
    ∧ (∀ r : Reg, t.reg r = 0x00) ∧ t.i = 0x0000 ∧ t.pc = 0x0200 ∧ t.sp.val = 0
    ∧ (∀ k, k < 16 → t.stack[k]? = some 0x0000) ∧ (∀ y x, y < 32 → x < 64 → pixelAt t.fb y x = false)
    ∧ t.dt = 0x00 ∧ t.st = 0x00 ∧ t.frameDirty = false ∧ (s.image = none → t.mode = .idle)
    ∧ (∀ bytes, s.image = some bytes → t.mode = .running)
    ∧ t.image = s.image ∧ t.cfg = s.cfg ∧ t.keysIn = s.keysIn ∧ sameRandom s t ∧ t.hostQueue = q

/-- After the host's reset the recorded image stands at 0x200, `FONT_IMAGE` at `FONT_BASE` (modulo 4096) where the image
does not cover it, and every other byte is 0x00 (10_state.md R28, 70_reset_and_hazards.md R125; decision D13, log 12).
The premises say that the image has at most 0xE00 bytes, as R25 promises, and the font at most 4096. -/
def Obligations.ResetMemoryHoldsTheImageAndTheFont : Prop :=
  ∀ (s t : State) (q : List HostCommand) (a : Nat), s.hostQueue = .reset :: q → step s = .next t →
    imageFits s.image = true → (s.cfg.fontImage.getD []).length ≤ 0x1000 → a < 0x1000 →
    (0x200 ≤ a → ∀ b, (s.image.getD [])[a - 0x200]? = some b → t.memRead a = b)
      ∧ ((a < 0x200 ∨ (s.image.getD [])[a - 0x200]? = none) →
          t.memRead a =
            ((s.cfg.fontImage.getD [])[(a + 0x1000 - s.cfg.fontBase.toNat % 0x1000) % 0x1000]?).getD 0x00)

/-- A load records the first 0xE00 bytes of the image and then does what a reset does, in every mode; after it the
engine runs (60_exceptions.md R115; decision D20, log 17). -/
def Obligations.LoadRecordsTheImageAndResets : Prop :=
  ∀ (s : State) (image : List Byte) (q : List HostCommand), s.hostQueue = .load image :: q →
    step s = step { s with image := some (image.take 0xE00), hostQueue := .reset :: q }
      ∧ ∃ t, step s = .next t ∧ t.image = some (image.take 0xE00) ∧ t.mode = .running ∧ t.pc = 0x0200

/-- A frame acknowledge clears `frame_dirty` and changes nothing else; a load that delivers no image changes nothing; a
new key level changes `keys_in` alone (60_exceptions.md R107, R116, R119; decisions D17, D20, D26, logs 15, 17, 19). -/
def Obligations.OtherHostCommandsChangeOneThing : Prop :=
  ∀ (s : State) (q : List HostCommand),
    (s.hostQueue = .frameAck :: q → step s = .next { s with frameDirty := false, hostQueue := q })
      ∧ (s.hostQueue = .loadFailed :: q → step s = .next { s with hostQueue := q })
      ∧ (∀ level, s.hostQueue = .keys level :: q → step s = .next { s with keysIn := level, hostQueue := q })

/-- A wait is left only by a key press, a reset or a load (60_exceptions.md R123; decision D15). -/
def Obligations.WaitIsLeftOnlyByKeyPressResetOrLoad : Prop :=
  ∀ (s t : State) (x : Reg), s.mode = .awaitingKey x → step s = .next t → t.mode ≠ .awaitingKey x →
    ∃ q, (∃ k, s.hostQueue = .keyPress k :: q) ∨ s.hostQueue = .reset :: q ∨ (∃ image, s.hostQueue = .load image :: q)

/-- `Idle` is left only by a load, in every state that meets the invariant (60_exceptions.md R123,
70_reset_and_hazards.md R128; decision D18). -/
def Obligations.IdleIsLeftOnlyByLoad : Prop :=
  ∀ s t : State, StateInv s → s.mode = .idle → step s = .next t → t.mode ≠ .idle →
    ∃ image q, s.hostQueue = .load image :: q

/-- The step after `withFetchWord` runs the word's instruction as a tick, with PC moved on and the host's queue as it
was; this is about the model's own `withFetchWord` (log 21). -/
def Obligations.PlacedWordIsTheNextInstruction : Prop :=
  ∀ (s : State) (w : Word), Memory.wf s.mem = true →
    step (s.withFetchWord 16 w.toNat) =
      finishTick (exec (decode w) (State.advancePc { s.withFetchWord 16 w.toNat with hostQueue := s.hostQueue }))

/-! ## Whole machine -/

/-- R104: no step faults, and where reserved words are no-ops every step answers a next state. -/
def Obligations.NoStepFaultsOrHalts : Prop :=
  (∀ (s : State) (r : Fault), step s ≠ .fault r)
    ∧ ∀ s : State, s.cfg.reservedPolicy = .nop → ∃ t, step s = .next t

/-- The one refusal: a tick in `Running` that fetched a reserved word under `RESERVED_POLICY = refuse`
(41_control_flow.md R73; decision D6, log 5). -/
def Obligations.OnlyAReservedWordIsRefused : Prop :=
  ∀ (s : State) (r : Refusal), step s = .refused r →
    s.cfg.reservedPolicy = .refuse ∧ s.mode = .running ∧ (∃ q, ticksNext s q) ∧ r = .reservedWord s.fetchWord
      ∧ (opcodeRow (decode s.fetchWord)).priority ≠ 0

/-- R13: every write of PC stores the value modulo 4096, odd values included, every step keeps PC below 4096, and PC is
below 4096 after reset. -/
def Obligations.PcAlwaysLiesInMemory : Prop :=
  (∀ (s : State) (a : Nat), (s.setPc a).pc.toNat = a % 0x1000)
    ∧ (∀ s t : State, s.pc.toNat < 0x1000 → step s = .next t → t.pc.toNat < 0x1000)
    ∧ State.reset.pc.toNat < 0x1000

/-- Every step keeps the invariant: PC below 4096 (10_state.md R13), memory in canonical form (log 22), the recorded
image within 0xE00 bytes (R25), `Idle` exactly when none is recorded (R22, R28; decisions D18, D20, log 17). -/
def Obligations.EveryStepKeepsTheInvariant : Prop :=
  ∀ s t : State, StateInv s → step s = .next t → StateInv t

/-- The invariant holds of the state after reset. -/
def Obligations.ResetMeetsTheInvariant : Prop :=
  StateInv State.reset

/-- No step changes the open parameters (00_scope.md section 4; that State carries them is the model's, log 1). -/
def Obligations.StepsKeepTheConfiguration : Prop :=
  ∀ s t : State, step s = .next t → t.cfg = s.cfg
end

