-- ==== Sys2Proof/Laws/Decode.lean ====
section
/-! SUPPORT. The fields of an encoded word, and a word rebuilt from its fields. -/

namespace Sys2Proof

/-! ## Register fields -/

@[simp] theorem toFin_regBits (x : Reg) : (regBits x).toFin = x := rfl

@[simp] theorem regBits_toFin (b : Nibble) : regBits b.toFin = b := rfl

/-! ## Format A -/

@[simp] theorem fieldOp_encodeA (op : Nibble) (nnn : Addr) : fieldOp (encodeA op nnn) = op := by
  ext i hi; simp [fieldOp, encodeA]; grind

@[simp] theorem fieldNNN_encodeA (op : Nibble) (nnn : Addr) : fieldNNN (encodeA op nnn) = nnn := by
  ext i hi; simp [fieldNNN, encodeA]; grind

theorem encodeA_fields (w : Word) : encodeA (fieldOp w) (fieldNNN w) = w := by
  ext i hi; simp [fieldOp, fieldNNN, encodeA]; grind

/-! ## Format XNN -/

@[simp] theorem fieldOp_encodeXNN (op : Nibble) (x : Reg) (nn : Byte) : fieldOp (encodeXNN op x nn) = op := by
  ext i hi; simp [fieldOp, encodeXNN]; grind

@[simp] theorem fieldX_encodeXNN (op : Nibble) (x : Reg) (nn : Byte) : fieldX (encodeXNN op x nn) = x := by
  have h : (encodeXNN op x nn).extractLsb' 8 4 = regBits x := by ext i hi; simp [encodeXNN]; grind
  simp [fieldX, h]

@[simp] theorem fieldNN_encodeXNN (op : Nibble) (x : Reg) (nn : Byte) : fieldNN (encodeXNN op x nn) = nn := by
  ext i hi; simp [fieldNN, encodeXNN]; grind

theorem encodeXNN_fields (w : Word) : encodeXNN (fieldOp w) (fieldX w) (fieldNN w) = w := by
  simp only [fieldX, encodeXNN, regBits_toFin]
  ext i hi; simp [fieldOp, fieldNN]; grind

/-! ## Formats XY and XYN -/

@[simp] theorem fieldOp_encodeXYN (op : Nibble) (x y : Reg) (n : Nibble) : fieldOp (encodeXYN op x y n) = op := by
  ext i hi; simp [fieldOp, encodeXYN]; grind

@[simp] theorem fieldX_encodeXYN (op : Nibble) (x y : Reg) (n : Nibble) : fieldX (encodeXYN op x y n) = x := by
  have h : (encodeXYN op x y n).extractLsb' 8 4 = regBits x := by ext i hi; simp [encodeXYN]; grind
  simp [fieldX, h]

@[simp] theorem fieldY_encodeXYN (op : Nibble) (x y : Reg) (n : Nibble) : fieldY (encodeXYN op x y n) = y := by
  have h : (encodeXYN op x y n).extractLsb' 4 4 = regBits y := by ext i hi; simp [encodeXYN]; grind
  simp [fieldY, h]

@[simp] theorem fieldN_encodeXYN (op : Nibble) (x y : Reg) (n : Nibble) : fieldN (encodeXYN op x y n) = n := by
  ext i hi; simp [fieldN, encodeXYN]; grind

theorem encodeXYN_fields (w : Word) : encodeXYN (fieldOp w) (fieldX w) (fieldY w) (fieldN w) = w := by
  simp only [fieldX, fieldY, encodeXYN, regBits_toFin]
  ext i hi; simp [fieldOp, fieldN]; grind

/-! ## The decoder, family by family -/

theorem decode_family0 {w : Word} (h : fieldOp w = 0x0) :
    decode w = decodeFamily0 w := by
  unfold decode; rw [h]; rfl

theorem decode_family1 {w : Word} (h : fieldOp w = 0x1) :
    decode w = .jump (fieldNNN w) := by
  unfold decode; rw [h]; rfl

theorem decode_family2 {w : Word} (h : fieldOp w = 0x2) :
    decode w = .call (fieldNNN w) := by
  unfold decode; rw [h]; rfl

theorem decode_family3 {w : Word} (h : fieldOp w = 0x3) :
    decode w = .skipIfEq (fieldX w) (fieldNN w) := by
  unfold decode; rw [h]; rfl

theorem decode_family4 {w : Word} (h : fieldOp w = 0x4) :
    decode w = .skipIfNeq (fieldX w) (fieldNN w) := by
  unfold decode; rw [h]; rfl

theorem decode_family5 {w : Word} (h : fieldOp w = 0x5) :
    decode w = if fieldN w = 0x0 then .skipIfRegEq (fieldX w) (fieldY w) else .reserved w := by
  unfold decode; rw [h]; rfl

theorem decode_family6 {w : Word} (h : fieldOp w = 0x6) :
    decode w = .loadImm (fieldX w) (fieldNN w) := by
  unfold decode; rw [h]; rfl

theorem decode_family7 {w : Word} (h : fieldOp w = 0x7) :
    decode w = .addImm (fieldX w) (fieldNN w) := by
  unfold decode; rw [h]; rfl

theorem decode_family8 {w : Word} (h : fieldOp w = 0x8) :
    decode w = decodeFamily8 w := by
  unfold decode; rw [h]; rfl

theorem decode_family9 {w : Word} (h : fieldOp w = 0x9) :
    decode w = if fieldN w = 0x0 then .skipIfRegNeq (fieldX w) (fieldY w) else .reserved w := by
  unfold decode; rw [h]; rfl

theorem decode_familyA {w : Word} (h : fieldOp w = 0xA) :
    decode w = .loadIndex (fieldNNN w) := by
  unfold decode; rw [h]; rfl

theorem decode_familyB {w : Word} (h : fieldOp w = 0xB) :
    decode w = .jumpOffset (fieldNNN w) := by
  unfold decode; rw [h]; rfl

theorem decode_familyC {w : Word} (h : fieldOp w = 0xC) :
    decode w = .random (fieldX w) (fieldNN w) := by
  unfold decode; rw [h]; rfl

theorem decode_familyD {w : Word} (h : fieldOp w = 0xD) :
    decode w = .draw (fieldX w) (fieldY w) (fieldN w) := by
  unfold decode; rw [h]; rfl

theorem decode_familyE {w : Word} (h : fieldOp w = 0xE) :
    decode w = decodeFamilyE w := by
  unfold decode; rw [h]; rfl

theorem decode_familyF {w : Word} (h : fieldOp w = 0xF) :
    decode w = decodeFamilyF w := by
  unfold decode; rw [h]; rfl

/-! ## Bytes -/

@[simp] theorem wordOfBytes_bytes (w : Word) : wordOfBytes (highByte w) (lowByte w) = w := by
  ext i hi; simp [wordOfBytes, highByte, lowByte]; grind

@[simp] theorem highByte_wordOfBytes (hi lo : Byte) : highByte (wordOfBytes hi lo) = hi := by
  ext i h; simp [wordOfBytes, highByte]; grind

@[simp] theorem lowByte_wordOfBytes (hi lo : Byte) : lowByte (wordOfBytes hi lo) = lo := by
  ext i h; simp [wordOfBytes, lowByte]; grind

theorem wordOfBytes_toNat (hi lo : Byte) : (wordOfBytes hi lo).toNat = 256 * hi.toNat + lo.toNat := by
  have h := lo.isLt
  simp only [wordOfBytes, BitVec.toNat_append]
  rw [← Nat.shiftLeft_add_eq_or_of_lt h, Nat.shiftLeft_eq]
  omega

/-- Two bytes always hold an instruction. -/
theorem decodeBytes_two (hi lo : Byte) (rest : List Byte) :
    decodeBytes (hi :: lo :: rest) = .ok (decode (wordOfBytes hi lo), rest) := rfl

/-- The decoder on a table word of 16 bits or fewer. -/
theorem decodeTableWord_eq (nbits w : Nat) : decodeTableWord nbits w = some (decode (tableWord nbits w)) := by
  simp [decodeTableWord, decodeBytes_two]

/-! ## The masks of the opcode table -/

theorem fieldOp_and (w m : Word) : fieldOp (w &&& m) = fieldOp w &&& fieldOp m := BitVec.extractLsb'_and ..

theorem fieldN_and (w m : Word) : fieldN (w &&& m) = fieldN w &&& fieldN m := BitVec.extractLsb'_and ..

theorem fieldNN_and (w m : Word) : fieldNN (w &&& m) = fieldNN w &&& fieldNN m := BitVec.extractLsb'_and ..

theorem nibble_and_ones (n : Nibble) : n &&& 0xF = n := by simpa using BitVec.and_allOnes (x := n)

theorem byte_and_ones (n : Byte) : n &&& 0xFF = n := by simpa using BitVec.and_allOnes (x := n)

/-- What a match under the mask 0xF000 says. -/
theorem op_of_mask {w p : Word} (h : w &&& 0xF000 = p) : fieldOp w = fieldOp p := by
  rw [← h, fieldOp_and]; exact (nibble_and_ones _).symm

/-- What a match under the mask 0xF00F says. -/
theorem op_n_of_mask {w p : Word} (h : w &&& 0xF00F = p) : fieldOp w = fieldOp p ∧ fieldN w = fieldN p := by
  rw [← h, fieldOp_and, fieldN_and]
  exact ⟨(nibble_and_ones _).symm, (nibble_and_ones _).symm⟩

/-- What a match under the mask 0xF0FF says. -/
theorem op_nn_of_mask {w p : Word} (h : w &&& 0xF0FF = p) : fieldOp w = fieldOp p ∧ fieldNN w = fieldNN p := by
  rw [← h, fieldOp_and, fieldNN_and]
  exact ⟨(nibble_and_ones _).symm, (byte_and_ones _).symm⟩

theorem and_encodeA (op op' : Nibble) (nnn nnn' : Addr) :
    encodeA op nnn &&& encodeA op' nnn' = encodeA (op &&& op') (nnn &&& nnn') := by
  ext i hi; simp [encodeA]; grind

theorem and_encodeXNN (op op' : Nibble) (x x' : Reg) (nn nn' : Byte) :
    encodeXNN op x nn &&& encodeXNN op' x' nn' = (op &&& op') ++ (regBits x &&& regBits x') ++ (nn &&& nn') := by
  ext i hi; simp [encodeXNN]; grind

theorem and_encodeXYN (op op' : Nibble) (x x' y y' : Reg) (n n' : Nibble) :
    encodeXYN op x y n &&& encodeXYN op' x' y' n' =
      (op &&& op') ++ (regBits x &&& regBits x') ++ (regBits y &&& regBits y') ++ (n &&& n') := by
  ext i hi; simp [encodeXYN]; grind

theorem encodeA_mask (op : Nibble) (nnn : Addr) : encodeA op nnn &&& 0xF000 = encodeA op 0 := by
  have h : (0xF000 : Word) = encodeA 0xF 0 := rfl
  rw [h, and_encodeA, nibble_and_ones]; simp

theorem encodeXNN_maskNN (op : Nibble) (x : Reg) (nn : Byte) :
    encodeXNN op x nn &&& 0xF0FF = encodeXNN op 0 nn := by
  have h : (0xF0FF : Word) = encodeXNN 0xF 0 0xFF := rfl
  rw [h, and_encodeXNN, nibble_and_ones, byte_and_ones]; simp [encodeXNN, regBits]

theorem encodeXYN_maskN (op : Nibble) (x y : Reg) (n : Nibble) :
    encodeXYN op x y n &&& 0xF00F = encodeXYN op 0 0 n := by
  have h : (0xF00F : Word) = encodeXYN 0xF 0 0 0xF := rfl
  rw [h, and_encodeXYN, nibble_and_ones, nibble_and_ones]; simp [encodeXYN, regBits]

/-- Every word under the mask 0xF000 keeps its opcode family alone. -/
theorem mask_eq (w : Word) : w &&& 0xF000 = encodeA (fieldOp w) 0 := by
  conv_lhs => rw [← encodeA_fields w, encodeA_mask]

theorem encodeXNN_mask (op : Nibble) (x : Reg) (nn : Byte) : encodeXNN op x nn &&& 0xF000 = encodeA op 0 := by
  rw [mask_eq, fieldOp_encodeXNN]

theorem encodeXYN_mask (op : Nibble) (x y : Reg) (n : Nibble) :
    encodeXYN op x y n &&& 0xF000 = encodeA op 0 := by
  rw [mask_eq, fieldOp_encodeXYN]

/-! ## The reserved words, by field -/

/-- The low nibble of a word, alone. -/
theorem low_nibble_eq (w : Word) : w &&& 0x000F = encodeXYN 0 0 0 (fieldN w) := by
  conv_lhs => rw [← encodeXYN_fields w]
  have h : (0x000F : Word) = encodeXYN 0 0 0 0xF := rfl
  rw [h, and_encodeXYN, nibble_and_ones]; simp [encodeXYN, regBits]

/-- The low byte of a word, alone. -/
theorem low_byte_eq (w : Word) : w &&& 0x00FF = encodeXNN 0 0 (fieldNN w) := by
  conv_lhs => rw [← encodeXNN_fields w]
  have h : (0x00FF : Word) = encodeXNN 0 0 0xFF := rfl
  rw [h, and_encodeXNN, byte_and_ones]; simp [encodeXNN, regBits]

/-- `isReservedWord` read from the family and the selectors of a word. -/
def reservedFields (op n : Nibble) (nn : Byte) : Bool :=
  (op == 0x5 && n != 0) || (op == 0x8 && [0x8, 0x9, 0xA, 0xB, 0xC, 0xD, 0xF].contains n) || (op == 0x9 && n != 0)
    || (op == 0xE && !([0x9E, 0xA1].contains nn))
    || (op == 0xF && !([0x07, 0x0A, 0x15, 0x18, 0x1E, 0x29, 0x33, 0x55, 0x65].contains nn))

theorem isReservedWord_fields (w : Word) : isReservedWord w = reservedFields (fieldOp w) (fieldN w) (fieldNN w) := by
  have hop : ∀ o k : Nibble, (encodeA o 0 == encodeA k 0) = (o == k) := by decide
  have hn : ∀ n k : Nibble, (encodeXYN 0 0 0 n == encodeXYN 0 0 0 k) = (n == k) := by decide
  have hnn : ∀ n k : Byte, (encodeXNN 0 0 n == encodeXNN 0 0 k) = (n == k) := by
    intro n k
    by_cases h : n = k
    · simp [h]
    · have : encodeXNN 0 0 n ≠ encodeXNN 0 0 k := fun e => h (by simpa using congrArg fieldNN e)
      rw [beq_eq_false_iff_ne.2 this, beq_eq_false_iff_ne.2 h]
  have hne : (encodeXYN 0 0 0 (fieldN w) != encodeXYN 0 0 0 0) = (fieldN w != 0) := by simp only [bne]; rw [hn]
  have hlist : ∀ l : List Nibble, (l.map (encodeXYN 0 0 0)).contains (encodeXYN 0 0 0 (fieldN w)) = l.contains (fieldN w) := by
    intro l; induction l with
    | nil => rfl
    | cons a l ih => simp only [List.map_cons, List.contains_cons, ih, hn]
  have hlist' : ∀ l : List Byte, (l.map (encodeXNN 0 0)).contains (encodeXNN 0 0 (fieldNN w)) = l.contains (fieldNN w) := by
    intro l; induction l with
    | nil => rfl
    | cons a l ih => simp only [List.map_cons, List.contains_cons, ih, hnn]
  unfold isReservedWord reservedFields
  rw [mask_eq, low_nibble_eq, low_byte_eq, ← hlist [0x8, 0x9, 0xA, 0xB, 0xC, 0xD, 0xF], ← hlist' [0x9E, 0xA1],
    ← hlist' [0x07, 0x0A, 0x15, 0x18, 0x1E, 0x29, 0x33, 0x55, 0x65], ← hne, ← hop _ 5, ← hop _ 8, ← hop _ 9, ← hop _ 0xE,
    ← hop _ 0xF]
  rfl

/-- The sixteen values of a nibble, for a case split on an opcode family. -/
theorem nibble_cases (o : Nibble) :
    o = 0 ∨ o = 1 ∨ o = 2 ∨ o = 3 ∨ o = 4 ∨ o = 5 ∨ o = 6 ∨ o = 7 ∨ o = 8 ∨ o = 9 ∨ o = 0xA ∨ o = 0xB ∨ o = 0xC ∨ o = 0xD
      ∨ o = 0xE ∨ o = 0xF := by
  revert o; decide

end Sys2Proof
end

