-- ==== Sys2Proof/Laws/State.lean ====
section
/-! SUPPORT. One lemma per field per named update of the state: the value of the field it writes, and every other field
kept. -/

namespace Sys2Proof.Machine

/-! ## `setReg` -/

@[simp] theorem State.setReg_cfg (s : State) (x : Reg) (b : Byte) : (s.setReg x b).cfg = s.cfg := rfl
@[simp] theorem State.setReg_pc (s : State) (x : Reg) (b : Byte) : (s.setReg x b).pc = s.pc := rfl
@[simp] theorem State.setReg_i (s : State) (x : Reg) (b : Byte) : (s.setReg x b).i = s.i := rfl
@[simp] theorem State.setReg_stack (s : State) (x : Reg) (b : Byte) : (s.setReg x b).stack = s.stack := rfl
@[simp] theorem State.setReg_sp (s : State) (x : Reg) (b : Byte) : (s.setReg x b).sp = s.sp := rfl
@[simp] theorem State.setReg_mem (s : State) (x : Reg) (b : Byte) : (s.setReg x b).mem = s.mem := rfl
@[simp] theorem State.setReg_fb (s : State) (x : Reg) (b : Byte) : (s.setReg x b).fb = s.fb := rfl
@[simp] theorem State.setReg_frameDirty (s : State) (x : Reg) (b : Byte) : (s.setReg x b).frameDirty = s.frameDirty := rfl
@[simp] theorem State.setReg_dt (s : State) (x : Reg) (b : Byte) : (s.setReg x b).dt = s.dt := rfl
@[simp] theorem State.setReg_st (s : State) (x : Reg) (b : Byte) : (s.setReg x b).st = s.st := rfl
@[simp] theorem State.setReg_mode (s : State) (x : Reg) (b : Byte) : (s.setReg x b).mode = s.mode := rfl
@[simp] theorem State.setReg_image (s : State) (x : Reg) (b : Byte) : (s.setReg x b).image = s.image := rfl
@[simp] theorem State.setReg_keysIn (s : State) (x : Reg) (b : Byte) : (s.setReg x b).keysIn = s.keysIn := rfl
@[simp] theorem State.setReg_hostQueue (s : State) (x : Reg) (b : Byte) : (s.setReg x b).hostQueue = s.hostQueue := rfl
@[simp] theorem State.setReg_randIn (s : State) (x : Reg) (b : Byte) : (s.setReg x b).randIn = s.randIn := rfl
@[simp] theorem State.setReg_randRequests (s : State) (x : Reg) (b : Byte) : (s.setReg x b).randRequests = s.randRequests := rfl
@[simp] theorem State.setReg_v (s : State) (x : Reg) (b : Byte) : (s.setReg x b).v = s.v.set x b := rfl

/-! ## `setPc` and `advancePc` -/

@[simp] theorem State.setPc_cfg (s : State) (a : Nat) : (s.setPc a).cfg = s.cfg := rfl
@[simp] theorem State.setPc_v (s : State) (a : Nat) : (s.setPc a).v = s.v := rfl
@[simp] theorem State.setPc_i (s : State) (a : Nat) : (s.setPc a).i = s.i := rfl
@[simp] theorem State.setPc_stack (s : State) (a : Nat) : (s.setPc a).stack = s.stack := rfl
@[simp] theorem State.setPc_sp (s : State) (a : Nat) : (s.setPc a).sp = s.sp := rfl
@[simp] theorem State.setPc_mem (s : State) (a : Nat) : (s.setPc a).mem = s.mem := rfl
@[simp] theorem State.setPc_fb (s : State) (a : Nat) : (s.setPc a).fb = s.fb := rfl
@[simp] theorem State.setPc_frameDirty (s : State) (a : Nat) : (s.setPc a).frameDirty = s.frameDirty := rfl
@[simp] theorem State.setPc_dt (s : State) (a : Nat) : (s.setPc a).dt = s.dt := rfl
@[simp] theorem State.setPc_st (s : State) (a : Nat) : (s.setPc a).st = s.st := rfl
@[simp] theorem State.setPc_mode (s : State) (a : Nat) : (s.setPc a).mode = s.mode := rfl
@[simp] theorem State.setPc_image (s : State) (a : Nat) : (s.setPc a).image = s.image := rfl
@[simp] theorem State.setPc_keysIn (s : State) (a : Nat) : (s.setPc a).keysIn = s.keysIn := rfl
@[simp] theorem State.setPc_hostQueue (s : State) (a : Nat) : (s.setPc a).hostQueue = s.hostQueue := rfl
@[simp] theorem State.setPc_randIn (s : State) (a : Nat) : (s.setPc a).randIn = s.randIn := rfl
@[simp] theorem State.setPc_randRequests (s : State) (a : Nat) : (s.setPc a).randRequests = s.randRequests := rfl
@[simp] theorem State.setPc_pc (s : State) (a : Nat) : (s.setPc a).pc = BitVec.ofNat 16 (a % memSize) := rfl

@[simp] theorem State.advancePc_cfg (s : State) : (s.advancePc).cfg = s.cfg := rfl
@[simp] theorem State.advancePc_v (s : State) : (s.advancePc).v = s.v := rfl
@[simp] theorem State.advancePc_i (s : State) : (s.advancePc).i = s.i := rfl
@[simp] theorem State.advancePc_stack (s : State) : (s.advancePc).stack = s.stack := rfl
@[simp] theorem State.advancePc_sp (s : State) : (s.advancePc).sp = s.sp := rfl
@[simp] theorem State.advancePc_mem (s : State) : (s.advancePc).mem = s.mem := rfl
@[simp] theorem State.advancePc_fb (s : State) : (s.advancePc).fb = s.fb := rfl
@[simp] theorem State.advancePc_frameDirty (s : State) : (s.advancePc).frameDirty = s.frameDirty := rfl
@[simp] theorem State.advancePc_dt (s : State) : (s.advancePc).dt = s.dt := rfl
@[simp] theorem State.advancePc_st (s : State) : (s.advancePc).st = s.st := rfl
@[simp] theorem State.advancePc_mode (s : State) : (s.advancePc).mode = s.mode := rfl
@[simp] theorem State.advancePc_image (s : State) : (s.advancePc).image = s.image := rfl
@[simp] theorem State.advancePc_keysIn (s : State) : (s.advancePc).keysIn = s.keysIn := rfl
@[simp] theorem State.advancePc_hostQueue (s : State) : (s.advancePc).hostQueue = s.hostQueue := rfl
@[simp] theorem State.advancePc_randIn (s : State) : (s.advancePc).randIn = s.randIn := rfl
@[simp] theorem State.advancePc_randRequests (s : State) : (s.advancePc).randRequests = s.randRequests := rfl
@[simp] theorem State.advancePc_pc (s : State) :
    s.advancePc.pc = BitVec.ofNat 16 ((s.pc.toNat + 2) % memSize) := rfl

/-! ## `memWrite` -/

@[simp] theorem State.memWrite_cfg (s : State) (a : Nat) (b : Byte) : (s.memWrite a b).cfg = s.cfg := rfl
@[simp] theorem State.memWrite_v (s : State) (a : Nat) (b : Byte) : (s.memWrite a b).v = s.v := rfl
@[simp] theorem State.memWrite_pc (s : State) (a : Nat) (b : Byte) : (s.memWrite a b).pc = s.pc := rfl
@[simp] theorem State.memWrite_i (s : State) (a : Nat) (b : Byte) : (s.memWrite a b).i = s.i := rfl
@[simp] theorem State.memWrite_stack (s : State) (a : Nat) (b : Byte) : (s.memWrite a b).stack = s.stack := rfl
@[simp] theorem State.memWrite_sp (s : State) (a : Nat) (b : Byte) : (s.memWrite a b).sp = s.sp := rfl
@[simp] theorem State.memWrite_fb (s : State) (a : Nat) (b : Byte) : (s.memWrite a b).fb = s.fb := rfl
@[simp] theorem State.memWrite_frameDirty (s : State) (a : Nat) (b : Byte) : (s.memWrite a b).frameDirty = s.frameDirty := rfl
@[simp] theorem State.memWrite_dt (s : State) (a : Nat) (b : Byte) : (s.memWrite a b).dt = s.dt := rfl
@[simp] theorem State.memWrite_st (s : State) (a : Nat) (b : Byte) : (s.memWrite a b).st = s.st := rfl
@[simp] theorem State.memWrite_mode (s : State) (a : Nat) (b : Byte) : (s.memWrite a b).mode = s.mode := rfl
@[simp] theorem State.memWrite_image (s : State) (a : Nat) (b : Byte) : (s.memWrite a b).image = s.image := rfl
@[simp] theorem State.memWrite_keysIn (s : State) (a : Nat) (b : Byte) : (s.memWrite a b).keysIn = s.keysIn := rfl
@[simp] theorem State.memWrite_hostQueue (s : State) (a : Nat) (b : Byte) : (s.memWrite a b).hostQueue = s.hostQueue := rfl
@[simp] theorem State.memWrite_randIn (s : State) (a : Nat) (b : Byte) : (s.memWrite a b).randIn = s.randIn := rfl
@[simp] theorem State.memWrite_randRequests (s : State) (a : Nat) (b : Byte) : (s.memWrite a b).randRequests = s.randRequests := rfl
@[simp] theorem State.memWrite_mem (s : State) (a : Nat) (b : Byte) : (s.memWrite a b).mem = Memory.write s.mem a b := rfl

/-! ## `drop` and `push` -/

@[simp] theorem State.drop_cfg (s : State) : (s.drop).cfg = s.cfg := rfl
@[simp] theorem State.drop_v (s : State) : (s.drop).v = s.v := rfl
@[simp] theorem State.drop_pc (s : State) : (s.drop).pc = s.pc := rfl
@[simp] theorem State.drop_i (s : State) : (s.drop).i = s.i := rfl
@[simp] theorem State.drop_stack (s : State) : (s.drop).stack = s.stack := rfl
@[simp] theorem State.drop_mem (s : State) : (s.drop).mem = s.mem := rfl
@[simp] theorem State.drop_fb (s : State) : (s.drop).fb = s.fb := rfl
@[simp] theorem State.drop_frameDirty (s : State) : (s.drop).frameDirty = s.frameDirty := rfl
@[simp] theorem State.drop_dt (s : State) : (s.drop).dt = s.dt := rfl
@[simp] theorem State.drop_st (s : State) : (s.drop).st = s.st := rfl
@[simp] theorem State.drop_mode (s : State) : (s.drop).mode = s.mode := rfl
@[simp] theorem State.drop_image (s : State) : (s.drop).image = s.image := rfl
@[simp] theorem State.drop_keysIn (s : State) : (s.drop).keysIn = s.keysIn := rfl
@[simp] theorem State.drop_hostQueue (s : State) : (s.drop).hostQueue = s.hostQueue := rfl
@[simp] theorem State.drop_randIn (s : State) : (s.drop).randIn = s.randIn := rfl
@[simp] theorem State.drop_randRequests (s : State) : (s.drop).randRequests = s.randRequests := rfl
@[simp] theorem State.drop_sp (s : State) : s.drop.sp.val = s.sp.val - 1 := rfl

@[simp] theorem State.push_cfg (s : State) (w : Word) : (s.push w).cfg = s.cfg := by
  unfold State.push; split <;> rfl
@[simp] theorem State.push_v (s : State) (w : Word) : (s.push w).v = s.v := by
  unfold State.push; split <;> rfl
@[simp] theorem State.push_pc (s : State) (w : Word) : (s.push w).pc = s.pc := by
  unfold State.push; split <;> rfl
@[simp] theorem State.push_i (s : State) (w : Word) : (s.push w).i = s.i := by
  unfold State.push; split <;> rfl
@[simp] theorem State.push_mem (s : State) (w : Word) : (s.push w).mem = s.mem := by
  unfold State.push; split <;> rfl
@[simp] theorem State.push_fb (s : State) (w : Word) : (s.push w).fb = s.fb := by
  unfold State.push; split <;> rfl
@[simp] theorem State.push_frameDirty (s : State) (w : Word) : (s.push w).frameDirty = s.frameDirty := by
  unfold State.push; split <;> rfl
@[simp] theorem State.push_dt (s : State) (w : Word) : (s.push w).dt = s.dt := by
  unfold State.push; split <;> rfl
@[simp] theorem State.push_st (s : State) (w : Word) : (s.push w).st = s.st := by
  unfold State.push; split <;> rfl
@[simp] theorem State.push_mode (s : State) (w : Word) : (s.push w).mode = s.mode := by
  unfold State.push; split <;> rfl
@[simp] theorem State.push_image (s : State) (w : Word) : (s.push w).image = s.image := by
  unfold State.push; split <;> rfl
@[simp] theorem State.push_keysIn (s : State) (w : Word) : (s.push w).keysIn = s.keysIn := by
  unfold State.push; split <;> rfl
@[simp] theorem State.push_hostQueue (s : State) (w : Word) : (s.push w).hostQueue = s.hostQueue := by
  unfold State.push; split <;> rfl
@[simp] theorem State.push_randIn (s : State) (w : Word) : (s.push w).randIn = s.randIn := by
  unfold State.push; split <;> rfl
@[simp] theorem State.push_randRequests (s : State) (w : Word) : (s.push w).randRequests = s.randRequests := by
  unfold State.push; split <;> rfl

/-! ## `timerStep` and `requestRandom` -/

@[simp] theorem State.timerStep_cfg (s : State) : (s.timerStep).cfg = s.cfg := rfl
@[simp] theorem State.timerStep_v (s : State) : (s.timerStep).v = s.v := rfl
@[simp] theorem State.timerStep_pc (s : State) : (s.timerStep).pc = s.pc := rfl
@[simp] theorem State.timerStep_i (s : State) : (s.timerStep).i = s.i := rfl
@[simp] theorem State.timerStep_stack (s : State) : (s.timerStep).stack = s.stack := rfl
@[simp] theorem State.timerStep_sp (s : State) : (s.timerStep).sp = s.sp := rfl
@[simp] theorem State.timerStep_mem (s : State) : (s.timerStep).mem = s.mem := rfl
@[simp] theorem State.timerStep_fb (s : State) : (s.timerStep).fb = s.fb := rfl
@[simp] theorem State.timerStep_frameDirty (s : State) : (s.timerStep).frameDirty = s.frameDirty := rfl
@[simp] theorem State.timerStep_mode (s : State) : (s.timerStep).mode = s.mode := rfl
@[simp] theorem State.timerStep_image (s : State) : (s.timerStep).image = s.image := rfl
@[simp] theorem State.timerStep_keysIn (s : State) : (s.timerStep).keysIn = s.keysIn := rfl
@[simp] theorem State.timerStep_hostQueue (s : State) : (s.timerStep).hostQueue = s.hostQueue := rfl
@[simp] theorem State.timerStep_randIn (s : State) : (s.timerStep).randIn = s.randIn := rfl
@[simp] theorem State.timerStep_randRequests (s : State) : (s.timerStep).randRequests = s.randRequests := rfl
@[simp] theorem State.timerStep_dt (s : State) : s.timerStep.dt = countDown s.dt := rfl
@[simp] theorem State.timerStep_st (s : State) : s.timerStep.st = countDown s.st := rfl

@[simp] theorem State.requestRandom_cfg (s : State) : (s.requestRandom).cfg = s.cfg := rfl
@[simp] theorem State.requestRandom_v (s : State) : (s.requestRandom).v = s.v := rfl
@[simp] theorem State.requestRandom_pc (s : State) : (s.requestRandom).pc = s.pc := rfl
@[simp] theorem State.requestRandom_i (s : State) : (s.requestRandom).i = s.i := rfl
@[simp] theorem State.requestRandom_stack (s : State) : (s.requestRandom).stack = s.stack := rfl
@[simp] theorem State.requestRandom_sp (s : State) : (s.requestRandom).sp = s.sp := rfl
@[simp] theorem State.requestRandom_mem (s : State) : (s.requestRandom).mem = s.mem := rfl
@[simp] theorem State.requestRandom_fb (s : State) : (s.requestRandom).fb = s.fb := rfl
@[simp] theorem State.requestRandom_frameDirty (s : State) : (s.requestRandom).frameDirty = s.frameDirty := rfl
@[simp] theorem State.requestRandom_dt (s : State) : (s.requestRandom).dt = s.dt := rfl
@[simp] theorem State.requestRandom_st (s : State) : (s.requestRandom).st = s.st := rfl
@[simp] theorem State.requestRandom_mode (s : State) : (s.requestRandom).mode = s.mode := rfl
@[simp] theorem State.requestRandom_image (s : State) : (s.requestRandom).image = s.image := rfl
@[simp] theorem State.requestRandom_keysIn (s : State) : (s.requestRandom).keysIn = s.keysIn := rfl
@[simp] theorem State.requestRandom_hostQueue (s : State) : (s.requestRandom).hostQueue = s.hostQueue := rfl
@[simp] theorem State.requestRandom_randIn (s : State) : s.requestRandom.randIn = s.randIn.tail := rfl
@[simp] theorem State.requestRandom_randRequests (s : State) :
    s.requestRandom.randRequests = s.randRequests + 1 := rfl

/-! ## `skipIf` -/

@[simp] theorem State.skipIf_cfg (s : State) (taken : Bool) : (s.skipIf taken).cfg = s.cfg := by
  cases taken <;> rfl
@[simp] theorem State.skipIf_v (s : State) (taken : Bool) : (s.skipIf taken).v = s.v := by
  cases taken <;> rfl
@[simp] theorem State.skipIf_i (s : State) (taken : Bool) : (s.skipIf taken).i = s.i := by
  cases taken <;> rfl
@[simp] theorem State.skipIf_stack (s : State) (taken : Bool) : (s.skipIf taken).stack = s.stack := by
  cases taken <;> rfl
@[simp] theorem State.skipIf_sp (s : State) (taken : Bool) : (s.skipIf taken).sp = s.sp := by
  cases taken <;> rfl
@[simp] theorem State.skipIf_mem (s : State) (taken : Bool) : (s.skipIf taken).mem = s.mem := by
  cases taken <;> rfl
@[simp] theorem State.skipIf_fb (s : State) (taken : Bool) : (s.skipIf taken).fb = s.fb := by
  cases taken <;> rfl
@[simp] theorem State.skipIf_frameDirty (s : State) (taken : Bool) : (s.skipIf taken).frameDirty = s.frameDirty := by
  cases taken <;> rfl
@[simp] theorem State.skipIf_dt (s : State) (taken : Bool) : (s.skipIf taken).dt = s.dt := by
  cases taken <;> rfl
@[simp] theorem State.skipIf_st (s : State) (taken : Bool) : (s.skipIf taken).st = s.st := by
  cases taken <;> rfl
@[simp] theorem State.skipIf_mode (s : State) (taken : Bool) : (s.skipIf taken).mode = s.mode := by
  cases taken <;> rfl
@[simp] theorem State.skipIf_image (s : State) (taken : Bool) : (s.skipIf taken).image = s.image := by
  cases taken <;> rfl
@[simp] theorem State.skipIf_keysIn (s : State) (taken : Bool) : (s.skipIf taken).keysIn = s.keysIn := by
  cases taken <;> rfl
@[simp] theorem State.skipIf_hostQueue (s : State) (taken : Bool) : (s.skipIf taken).hostQueue = s.hostQueue := by
  cases taken <;> rfl
@[simp] theorem State.skipIf_randIn (s : State) (taken : Bool) : (s.skipIf taken).randIn = s.randIn := by
  cases taken <;> rfl
@[simp] theorem State.skipIf_randRequests (s : State) (taken : Bool) : (s.skipIf taken).randRequests = s.randRequests := by
  cases taken <;> rfl
@[simp] theorem State.skipIf_pc (s : State) (taken : Bool) :
    (s.skipIf taken).pc = if taken then s.advancePc.pc else s.pc := by
  cases taken <;> rfl

/-! ## `writeResultAndFlag` -/

@[simp] theorem State.writeResultAndFlag_cfg (s : State) (x : Reg) (r : Byte) (f : Bool) : (s.writeResultAndFlag x r f).cfg = s.cfg := by
  unfold State.writeResultAndFlag; split <;> rfl
@[simp] theorem State.writeResultAndFlag_pc (s : State) (x : Reg) (r : Byte) (f : Bool) : (s.writeResultAndFlag x r f).pc = s.pc := by
  unfold State.writeResultAndFlag; split <;> rfl
@[simp] theorem State.writeResultAndFlag_i (s : State) (x : Reg) (r : Byte) (f : Bool) : (s.writeResultAndFlag x r f).i = s.i := by
  unfold State.writeResultAndFlag; split <;> rfl
@[simp] theorem State.writeResultAndFlag_stack (s : State) (x : Reg) (r : Byte) (f : Bool) : (s.writeResultAndFlag x r f).stack = s.stack := by
  unfold State.writeResultAndFlag; split <;> rfl
@[simp] theorem State.writeResultAndFlag_sp (s : State) (x : Reg) (r : Byte) (f : Bool) : (s.writeResultAndFlag x r f).sp = s.sp := by
  unfold State.writeResultAndFlag; split <;> rfl
@[simp] theorem State.writeResultAndFlag_mem (s : State) (x : Reg) (r : Byte) (f : Bool) : (s.writeResultAndFlag x r f).mem = s.mem := by
  unfold State.writeResultAndFlag; split <;> rfl
@[simp] theorem State.writeResultAndFlag_fb (s : State) (x : Reg) (r : Byte) (f : Bool) : (s.writeResultAndFlag x r f).fb = s.fb := by
  unfold State.writeResultAndFlag; split <;> rfl
@[simp] theorem State.writeResultAndFlag_frameDirty (s : State) (x : Reg) (r : Byte) (f : Bool) : (s.writeResultAndFlag x r f).frameDirty = s.frameDirty := by
  unfold State.writeResultAndFlag; split <;> rfl
@[simp] theorem State.writeResultAndFlag_dt (s : State) (x : Reg) (r : Byte) (f : Bool) : (s.writeResultAndFlag x r f).dt = s.dt := by
  unfold State.writeResultAndFlag; split <;> rfl
@[simp] theorem State.writeResultAndFlag_st (s : State) (x : Reg) (r : Byte) (f : Bool) : (s.writeResultAndFlag x r f).st = s.st := by
  unfold State.writeResultAndFlag; split <;> rfl
@[simp] theorem State.writeResultAndFlag_mode (s : State) (x : Reg) (r : Byte) (f : Bool) : (s.writeResultAndFlag x r f).mode = s.mode := by
  unfold State.writeResultAndFlag; split <;> rfl
@[simp] theorem State.writeResultAndFlag_image (s : State) (x : Reg) (r : Byte) (f : Bool) : (s.writeResultAndFlag x r f).image = s.image := by
  unfold State.writeResultAndFlag; split <;> rfl
@[simp] theorem State.writeResultAndFlag_keysIn (s : State) (x : Reg) (r : Byte) (f : Bool) : (s.writeResultAndFlag x r f).keysIn = s.keysIn := by
  unfold State.writeResultAndFlag; split <;> rfl
@[simp] theorem State.writeResultAndFlag_hostQueue (s : State) (x : Reg) (r : Byte) (f : Bool) : (s.writeResultAndFlag x r f).hostQueue = s.hostQueue := by
  unfold State.writeResultAndFlag; split <;> rfl
@[simp] theorem State.writeResultAndFlag_randIn (s : State) (x : Reg) (r : Byte) (f : Bool) : (s.writeResultAndFlag x r f).randIn = s.randIn := by
  unfold State.writeResultAndFlag; split <;> rfl
@[simp] theorem State.writeResultAndFlag_randRequests (s : State) (x : Reg) (r : Byte) (f : Bool) : (s.writeResultAndFlag x r f).randRequests = s.randRequests := by
  unfold State.writeResultAndFlag; split <;> rfl

/-! ## `storeBlock` and `loadBlock` -/

@[simp] theorem State.storeBlock_cfg (s : State) (n : Nat) : (s.storeBlock n).cfg = s.cfg := by
  induction n with
  | zero => rfl
  | succ k ih => simpa [State.storeBlock] using ih
@[simp] theorem State.storeBlock_v (s : State) (n : Nat) : (s.storeBlock n).v = s.v := by
  induction n with
  | zero => rfl
  | succ k ih => simpa [State.storeBlock] using ih
@[simp] theorem State.storeBlock_pc (s : State) (n : Nat) : (s.storeBlock n).pc = s.pc := by
  induction n with
  | zero => rfl
  | succ k ih => simpa [State.storeBlock] using ih
@[simp] theorem State.storeBlock_i (s : State) (n : Nat) : (s.storeBlock n).i = s.i := by
  induction n with
  | zero => rfl
  | succ k ih => simpa [State.storeBlock] using ih
@[simp] theorem State.storeBlock_stack (s : State) (n : Nat) : (s.storeBlock n).stack = s.stack := by
  induction n with
  | zero => rfl
  | succ k ih => simpa [State.storeBlock] using ih
@[simp] theorem State.storeBlock_sp (s : State) (n : Nat) : (s.storeBlock n).sp = s.sp := by
  induction n with
  | zero => rfl
  | succ k ih => simpa [State.storeBlock] using ih
@[simp] theorem State.storeBlock_fb (s : State) (n : Nat) : (s.storeBlock n).fb = s.fb := by
  induction n with
  | zero => rfl
  | succ k ih => simpa [State.storeBlock] using ih
@[simp] theorem State.storeBlock_frameDirty (s : State) (n : Nat) : (s.storeBlock n).frameDirty = s.frameDirty := by
  induction n with
  | zero => rfl
  | succ k ih => simpa [State.storeBlock] using ih
@[simp] theorem State.storeBlock_dt (s : State) (n : Nat) : (s.storeBlock n).dt = s.dt := by
  induction n with
  | zero => rfl
  | succ k ih => simpa [State.storeBlock] using ih
@[simp] theorem State.storeBlock_st (s : State) (n : Nat) : (s.storeBlock n).st = s.st := by
  induction n with
  | zero => rfl
  | succ k ih => simpa [State.storeBlock] using ih
@[simp] theorem State.storeBlock_mode (s : State) (n : Nat) : (s.storeBlock n).mode = s.mode := by
  induction n with
  | zero => rfl
  | succ k ih => simpa [State.storeBlock] using ih
@[simp] theorem State.storeBlock_image (s : State) (n : Nat) : (s.storeBlock n).image = s.image := by
  induction n with
  | zero => rfl
  | succ k ih => simpa [State.storeBlock] using ih
@[simp] theorem State.storeBlock_keysIn (s : State) (n : Nat) : (s.storeBlock n).keysIn = s.keysIn := by
  induction n with
  | zero => rfl
  | succ k ih => simpa [State.storeBlock] using ih
@[simp] theorem State.storeBlock_hostQueue (s : State) (n : Nat) : (s.storeBlock n).hostQueue = s.hostQueue := by
  induction n with
  | zero => rfl
  | succ k ih => simpa [State.storeBlock] using ih
@[simp] theorem State.storeBlock_randIn (s : State) (n : Nat) : (s.storeBlock n).randIn = s.randIn := by
  induction n with
  | zero => rfl
  | succ k ih => simpa [State.storeBlock] using ih
@[simp] theorem State.storeBlock_randRequests (s : State) (n : Nat) : (s.storeBlock n).randRequests = s.randRequests := by
  induction n with
  | zero => rfl
  | succ k ih => simpa [State.storeBlock] using ih

@[simp] theorem State.loadBlock_cfg (s : State) (n : Nat) : (s.loadBlock n).cfg = s.cfg := by
  induction n with
  | zero => rfl
  | succ k ih => simpa [State.loadBlock] using ih
@[simp] theorem State.loadBlock_pc (s : State) (n : Nat) : (s.loadBlock n).pc = s.pc := by
  induction n with
  | zero => rfl
  | succ k ih => simpa [State.loadBlock] using ih
@[simp] theorem State.loadBlock_i (s : State) (n : Nat) : (s.loadBlock n).i = s.i := by
  induction n with
  | zero => rfl
  | succ k ih => simpa [State.loadBlock] using ih
@[simp] theorem State.loadBlock_stack (s : State) (n : Nat) : (s.loadBlock n).stack = s.stack := by
  induction n with
  | zero => rfl
  | succ k ih => simpa [State.loadBlock] using ih
@[simp] theorem State.loadBlock_sp (s : State) (n : Nat) : (s.loadBlock n).sp = s.sp := by
  induction n with
  | zero => rfl
  | succ k ih => simpa [State.loadBlock] using ih
@[simp] theorem State.loadBlock_mem (s : State) (n : Nat) : (s.loadBlock n).mem = s.mem := by
  induction n with
  | zero => rfl
  | succ k ih => simpa [State.loadBlock] using ih
@[simp] theorem State.loadBlock_fb (s : State) (n : Nat) : (s.loadBlock n).fb = s.fb := by
  induction n with
  | zero => rfl
  | succ k ih => simpa [State.loadBlock] using ih
@[simp] theorem State.loadBlock_frameDirty (s : State) (n : Nat) : (s.loadBlock n).frameDirty = s.frameDirty := by
  induction n with
  | zero => rfl
  | succ k ih => simpa [State.loadBlock] using ih
@[simp] theorem State.loadBlock_dt (s : State) (n : Nat) : (s.loadBlock n).dt = s.dt := by
  induction n with
  | zero => rfl
  | succ k ih => simpa [State.loadBlock] using ih
@[simp] theorem State.loadBlock_st (s : State) (n : Nat) : (s.loadBlock n).st = s.st := by
  induction n with
  | zero => rfl
  | succ k ih => simpa [State.loadBlock] using ih
@[simp] theorem State.loadBlock_mode (s : State) (n : Nat) : (s.loadBlock n).mode = s.mode := by
  induction n with
  | zero => rfl
  | succ k ih => simpa [State.loadBlock] using ih
@[simp] theorem State.loadBlock_image (s : State) (n : Nat) : (s.loadBlock n).image = s.image := by
  induction n with
  | zero => rfl
  | succ k ih => simpa [State.loadBlock] using ih
@[simp] theorem State.loadBlock_keysIn (s : State) (n : Nat) : (s.loadBlock n).keysIn = s.keysIn := by
  induction n with
  | zero => rfl
  | succ k ih => simpa [State.loadBlock] using ih
@[simp] theorem State.loadBlock_hostQueue (s : State) (n : Nat) : (s.loadBlock n).hostQueue = s.hostQueue := by
  induction n with
  | zero => rfl
  | succ k ih => simpa [State.loadBlock] using ih
@[simp] theorem State.loadBlock_randIn (s : State) (n : Nat) : (s.loadBlock n).randIn = s.randIn := by
  induction n with
  | zero => rfl
  | succ k ih => simpa [State.loadBlock] using ih
@[simp] theorem State.loadBlock_randRequests (s : State) (n : Nat) : (s.loadBlock n).randRequests = s.randRequests := by
  induction n with
  | zero => rfl
  | succ k ih => simpa [State.loadBlock] using ih

end Sys2Proof.Machine
end

