-- ==== Sys2Proof/Laws/Memory.lean ====
section
/-! SUPPORT. Memory: reading after a write, and the canonical form that every memory operation keeps. -/

namespace Sys2Proof.Machine

/-! ## The canonical form -/

theorem Memory.wfFrom_cons (lo a : Nat) (b : Byte) (rest : Memory) :
    Memory.wfFrom lo ((a, b) :: rest) = true ↔
      lo ≤ a ∧ a < memSize ∧ b ≠ 0x00 ∧ Memory.wfFrom (a + 1) rest = true := by
  simp [Memory.wfFrom, and_assoc]

theorem Memory.wfFrom_mono {lo lo' : Nat} {m : Memory} (hle : lo' ≤ lo) (h : Memory.wfFrom lo m = true) :
    Memory.wfFrom lo' m = true := by
  cases m with
  | nil => rfl
  | cons c rest =>
    rw [Memory.wfFrom_cons] at h ⊢
    exact ⟨by omega, h.2⟩

/-- Nothing is listed below the bound of the form. -/
theorem Memory.get_below {lo a : Nat} {m : Memory} (h : Memory.wfFrom lo m = true) (ha : a < lo) :
    Memory.get m a = 0x00 := by
  induction m generalizing lo with
  | nil => rfl
  | cons c rest ih =>
    rw [Memory.wfFrom_cons] at h
    have hne : a ≠ c.1 := by omega
    simpa [Memory.get, hne] using ih h.2.2.2 (by omega)

theorem Memory.wfFrom_cons' {lo a : Nat} {b : Byte} {rest : Memory} (hlo : lo ≤ a) (ha : a < memSize)
    (h : Memory.wfFrom (a + 1) rest = true) : Memory.wfFrom lo (Memory.cons a b rest) = true := by
  unfold Memory.cons
  split
  · exact Memory.wfFrom_mono (by omega) h
  · exact (Memory.wfFrom_cons ..).2 ⟨hlo, ha, by assumption, h⟩

theorem Memory.put_wfFrom {lo a : Nat} {m : Memory} {b : Byte} (h : Memory.wfFrom lo m = true) (hlo : lo ≤ a)
    (ha : a < memSize) : Memory.wfFrom lo (Memory.put m a b) = true := by
  induction m generalizing lo with
  | nil => exact Memory.wfFrom_cons' hlo ha rfl
  | cons c rest ih =>
    obtain ⟨hc, hcm, hd, hrest⟩ := (Memory.wfFrom_cons ..).1 h
    unfold Memory.put
    split
    · exact Memory.wfFrom_cons' hlo ha ((Memory.wfFrom_cons ..).2 ⟨by omega, hcm, hd, hrest⟩)
    · split
      · rename_i hac
        exact Memory.wfFrom_cons' hlo ha (hac ▸ hrest)
      · exact (Memory.wfFrom_cons ..).2 ⟨hc, hcm, hd, ih hrest (by omega)⟩

theorem Memory.write_wf {m : Memory} (h : Memory.wf m = true) (a : Nat) (b : Byte) :
    Memory.wf (Memory.write m a b) = true :=
  Memory.put_wfFrom h (Nat.zero_le _) (Nat.mod_lt _ (by decide))

theorem Memory.writeBytes_wf {m : Memory} (h : Memory.wf m = true) (a : Nat) (bytes : List Byte) :
    Memory.wf (Memory.writeBytes m a bytes) = true := by
  induction bytes generalizing m a with
  | nil => exact h
  | cons b rest ih => exact ih (Memory.write_wf h a b) (a + 1)

theorem resetMemory_wf (cfg : Config) (image : Option (List Byte)) : Memory.wf (resetMemory cfg image) = true :=
  Memory.writeBytes_wf (Memory.writeBytes_wf rfl _ _) _ _

/-! ## Reading after a write -/

/-- A write leaves every other address alone, in any memory. -/
theorem Memory.get_put_other (m : Memory) {a a' : Nat} (b : Byte) (h : a' ≠ a) :
    Memory.get (Memory.put m a b) a' = Memory.get m a' := by
  induction m with
  | nil => unfold Memory.put Memory.cons; split <;> simp [Memory.get, h]
  | cons c rest ih =>
    unfold Memory.put Memory.cons
    by_cases hc : a' = c.1
    all_goals split <;> [skip; split] <;> (try split) <;> simp_all [Memory.get]

/-- A write is read back, in a memory of canonical form. -/
theorem Memory.get_put_same {lo : Nat} {m : Memory} (h : Memory.wfFrom lo m = true) (a : Nat) (b : Byte) :
    Memory.get (Memory.put m a b) a = b := by
  induction m generalizing lo with
  | nil => unfold Memory.put Memory.cons; split <;> simp_all [Memory.get]
  | cons c rest ih =>
    obtain ⟨_, _, _, hrest⟩ := (Memory.wfFrom_cons ..).1 h
    unfold Memory.put Memory.cons
    split
    · have hbelow := Memory.get_below hrest (a := a) (by omega)
      have hne : a ≠ c.1 := by omega
      split <;> simp_all [Memory.get]
    · split
      · have hbelow := Memory.get_below hrest (a := a) (by omega)
        split <;> simp_all [Memory.get]
      · simpa [Memory.get, *] using ih hrest

theorem Memory.read_mod (m : Memory) (a : Nat) : Memory.read m (a % memSize) = Memory.read m a := by
  simp [Memory.read]

theorem Memory.read_write_other (m : Memory) {a a' : Nat} (b : Byte) (h : a' % memSize ≠ a % memSize) :
    Memory.read (Memory.write m a b) a' = Memory.read m a' :=
  Memory.get_put_other m b h

theorem Memory.read_write_same {m : Memory} (hm : Memory.wf m = true) {a a' : Nat} (b : Byte)
    (h : a' % memSize = a % memSize) : Memory.read (Memory.write m a b) a' = b := by
  unfold Memory.read Memory.write
  rw [h]
  exact Memory.get_put_same hm _ _

theorem Memory.read_write {m : Memory} (hm : Memory.wf m = true) (a a' : Nat) (b : Byte) :
    Memory.read (Memory.write m a b) a' = if a' % memSize = a % memSize then b else Memory.read m a' := by
  split
  · exact Memory.read_write_same hm b ‹_›
  · exact Memory.read_write_other m b ‹_›

/-! ## The same laws in a state -/

theorem State.memRead_eq_of_mem {s t : State} (h : t.mem = s.mem) (a : Nat) : t.memRead a = s.memRead a := by
  simp [State.memRead, h]

theorem State.memRead_memWrite_other (s : State) {a a' : Nat} (b : Byte) (h : a' % memSize ≠ a % memSize) :
    (s.memWrite a b).memRead a' = s.memRead a' :=
  Memory.read_write_other s.mem b h

theorem State.memRead_memWrite_same {s : State} (hm : Memory.wf s.mem = true) {a a' : Nat} (b : Byte)
    (h : a' % memSize = a % memSize) : (s.memWrite a b).memRead a' = b :=
  Memory.read_write_same hm b h

theorem State.memWrite_wf {s : State} (hm : Memory.wf s.mem = true) (a : Nat) (b : Byte) :
    Memory.wf (s.memWrite a b).mem = true :=
  Memory.write_wf hm a b

theorem State.storeBlock_wf {s : State} (hm : Memory.wf s.mem = true) (n : Nat) :
    Memory.wf (s.storeBlock n).mem = true := by
  induction n with
  | zero => exact hm
  | succ k ih => exact State.memWrite_wf ih _ _

/-- The bytes `store-regs` does not reach keep their value. -/
theorem State.memRead_storeBlock_other (s : State) (n : Nat) {a : Nat}
    (h : ∀ k, k < n → a % memSize ≠ s.indexed k % memSize) : (s.storeBlock n).memRead a = s.memRead a := by
  induction n with
  | zero => rfl
  | succ k ih =>
    rw [State.storeBlock, State.memRead_memWrite_other _ _ (h k (by omega))]
    exact ih fun j hj => h j (by omega)

/-- Two offsets below 16 from one base are two addresses. -/
theorem State.indexed_ne (s : State) {j k : Nat} (hj : j < 16) (hk : k < 16) (h : j ≠ k) :
    s.indexed j % memSize ≠ s.indexed k % memSize := by
  unfold State.indexed memSize; omega

/-- The byte at `I + j` after `store-regs` is register `j`. -/
theorem State.memRead_storeBlock {s : State} (hm : Memory.wf s.mem = true) {n j : Nat} (hn : n ≤ 16) (hj : j < n) :
    (s.storeBlock n).memRead (s.indexed j) = s.reg (blockReg j) := by
  induction n with
  | zero => omega
  | succ k ih =>
    rw [State.storeBlock]
    by_cases hjk : j = k
    · subst hjk
      exact State.memRead_memWrite_same (State.storeBlock_wf hm _) _ rfl
    · rw [State.memRead_memWrite_other _ _ (s.indexed_ne (by omega) (by omega) hjk)]
      exact ih (by omega) (by omega)

/-! ## A list of bytes written at once -/

theorem Memory.read_writeBytes_other (m : Memory) (bytes : List Byte) {a a' : Nat}
    (h : ∀ k, k < bytes.length → a' % memSize ≠ (a + k) % memSize) :
    Memory.read (Memory.writeBytes m a bytes) a' = Memory.read m a' := by
  induction bytes generalizing m a with
  | nil => rfl
  | cons b rest ih =>
    rw [Memory.writeBytes, ih _ fun k hk => ?_]
    · exact Memory.read_write_other _ _ (h 0 (by simp))
    · have := h (k + 1) (by simpa using hk)
      rwa [Nat.add_assoc, Nat.add_comm 1 k]

/-- Byte `k` of a list no longer than memory is read back at the `k`-th address. -/
theorem Memory.read_writeBytes_same {m : Memory} (hm : Memory.wf m = true) {bytes : List Byte} (a : Nat) {k : Nat} {b : Byte}
    (hl : bytes.length ≤ memSize) (h : bytes[k]? = some b) : Memory.read (Memory.writeBytes m a bytes) (a + k) = b := by
  induction bytes generalizing m a k with
  | nil => simp at h
  | cons c rest ih =>
    rw [Memory.writeBytes]
    cases k with
    | zero =>
      rw [Memory.read_writeBytes_other]
      · simp at h; subst h; exact Memory.read_write_same hm _ rfl
      · intro k hk; simp at hl; unfold memSize at *; omega
    | succ k =>
      have := ih (Memory.write_wf hm a c) (a + 1) (k := k) (by simp at hl; omega) (by simpa using h)
      rwa [Nat.add_assoc, Nat.add_comm 1 k] at this

end Sys2Proof.Machine
end

