-- ==== Sys2Proof/Laws/Ops.lean ====
section
/-! SUPPORT. What each shared operation on registers, PC, the stack, the timers and the flags does, said once. -/

namespace Sys2Proof.Machine

/-! ## Registers -/

theorem State.reg_setReg (s : State) (x r : Reg) (b : Byte) : (s.setReg x b).reg r = if r = x then b else s.reg r := by
  simp only [State.reg, State.setReg, Fin.getElem_fin, Vector.getElem_set]
  split <;> split <;> simp_all [Fin.ext_iff]

@[simp] theorem State.reg_setReg_same (s : State) (x : Reg) (b : Byte) : (s.setReg x b).reg x = b := by
  simp [State.reg_setReg]

theorem State.reg_setReg_other (s : State) {x r : Reg} (b : Byte) (h : r ≠ x) : (s.setReg x b).reg r = s.reg r := by
  simp [State.reg_setReg, h]

theorem State.reg_eq_of_v {s t : State} (h : t.v = s.v) (r : Reg) : t.reg r = s.reg r := by
  simp [State.reg, h]

/-! ## PC -/

theorem State.setPc_toNat (s : State) (a : Nat) : (s.setPc a).pc.toNat = a % memSize := by
  simp only [State.setPc_pc, BitVec.toNat_ofNat]
  unfold memSize; omega

theorem State.advancePc_toNat (s : State) : s.advancePc.pc.toNat = (s.pc.toNat + 2) % memSize :=
  State.setPc_toNat s _

theorem State.setPc_below (s : State) (a : Nat) : (s.setPc a).pc.toNat < memSize := by
  rw [State.setPc_toNat]; exact Nat.mod_lt _ (by decide)

theorem State.advancePc_below (s : State) : s.advancePc.pc.toNat < memSize := State.setPc_below s _

theorem State.skipIf_below {s : State} (h : s.pc.toNat < memSize) (taken : Bool) :
    (s.skipIf taken).pc.toNat < memSize := by
  cases taken
  · exact h
  · exact State.advancePc_below s

/-! ## The call stack -/

theorem State.push_full {s : State} (h : s.sp.val = 16) (w : Word) : s.push w = s := by
  simp [State.push, h]

theorem State.push_room {s : State} (h : s.sp.val < 16) (w : Word) :
    (s.push w).sp.val = s.sp.val + 1 ∧ (s.push w).stack = s.stack.set s.sp.val w := by
  simp [State.push, h]

theorem State.top_empty {s : State} (h : s.sp.val = 0) : s.top = none := by simp [State.top, h]

theorem State.drop_empty {s : State} (h : s.sp.val = 0) : s.drop = s := by
  have hsp : (⟨s.sp.val - 1, by omega⟩ : Fin 17) = s.sp := by ext; simp [h]
  simp [State.drop, hsp]

/-- What was pushed on a stack with room is what is then on top. -/
theorem State.top_push {s : State} (h : s.sp.val < 16) (w : Word) : (s.push w).top = some w := by
  simp [State.top, State.push, h]

/-! ## Timers -/

theorem countDown_toNat (t : Byte) : (countDown t).toNat = t.toNat - 1 := by
  unfold countDown
  split
  · simp_all
  · have : t.toNat ≠ 0 := fun h => by simp_all [BitVec.toNat_eq]
    have := t.isLt
    rw [BitVec.toNat_sub]
    simp
    omega

/-! ## Flags -/

theorem State.reg_writeResultAndFlag (s : State) (x r : Reg) (b : Byte) (f : Bool) :
    (s.writeResultAndFlag x b f).reg r =
      if r = x ∧ (x ≠ regF ∨ s.cfg.flagOrder = .flagThenResult) then b
      else if r = regF then flagByte f else s.reg r := by
  unfold State.writeResultAndFlag
  split <;> simp only [State.reg_setReg] <;> grind

/-- Registers other than the destination and VF keep their value. -/
theorem State.writeResultAndFlag_other (s : State) {x r : Reg} (b : Byte) (f : Bool) (hx : r ≠ x) (hf : r ≠ regF) :
    (s.writeResultAndFlag x b f).reg r = s.reg r := by
  simp [State.reg_writeResultAndFlag, hx, hf]

/-! ## Register blocks -/

theorem blockReg_val {k : Nat} (h : k < 16) : (blockReg k).val = k := Nat.mod_eq_of_lt h

theorem blockReg_eq {k : Nat} (h : k < 16) : blockReg k = ⟨k, h⟩ := Fin.ext (blockReg_val h)

/-- Register `r` after `load-regs` of the registers below `n`. -/
theorem State.reg_loadBlock (s : State) {n : Nat} (hn : n ≤ 16) (r : Reg) :
    (s.loadBlock n).reg r = if r.val < n then s.memRead (s.indexed r.val) else s.reg r := by
  induction n with
  | zero => simp [State.loadBlock]
  | succ k ih =>
    have hk : k < 16 := by omega
    rw [State.loadBlock, State.reg_setReg, ih (by omega), blockReg_eq hk]
    by_cases h : r = ⟨k, hk⟩
    · subst h; simp
    · have : r.val ≠ k := fun e => h (Fin.ext e)
      simp only [h, if_false]
      split <;> split <;> first | rfl | omega

/-! ## The end of a tick -/

/-- The one way a finished tick answers next. -/
theorem finishTick_next {o : Host.Outcome State Fault Refusal} {t : State} (h : finishTick o = .next t) :
    ∃ u, o = .next u ∧ t = u.timerStep := by
  cases o with
  | next u => exact ⟨u, rfl, by simpa [finishTick] using h.symm⟩
  | fault r => cases r
  | refused r => simp [finishTick] at h

/-! ## One destination register, with and without VF -/

theorem wrote_setReg (s : State) (x : Reg) (b : Byte) : wrote s (s.setReg x b) x b :=
  ⟨State.reg_setReg_same .., fun _ hr => State.reg_setReg_other _ _ (by simpa using hr),
    ⟨rfl, rfl, rfl⟩, fun _ => rfl, ⟨rfl, rfl⟩, ⟨rfl, rfl⟩, ⟨rfl, rfl⟩, ⟨rfl, rfl⟩, rfl, rfl, rfl, rfl⟩

theorem wroteWithFlag_writeResultAndFlag (s : State) (x : Reg) (b : Byte) (f : Bool) :
    wroteWithFlag s (s.writeResultAndFlag x b f) x b (flagByte f) := by
  refine ⟨?_, ?_, ?_, ?_, ?_⟩
  · intro h; simp [State.reg_writeResultAndFlag, h, Ne.symm h]
  · intro h h'; simp [State.reg_writeResultAndFlag, h, h']
  · intro h h'; simp [State.reg_writeResultAndFlag, h, h']
  · intro r hr; simp at hr; exact State.writeResultAndFlag_other _ _ _ hr.1 hr.2
  · simp [sameButRegs, sameControl, sameStack, sameMemory, sameDisplay, sameTimers, sameRandom, sameOutside, State.memRead]

end Sys2Proof.Machine
end

