-- ==== Sys2Proof/Laws/Display.lean ====
section
/-! SUPPORT. The framebuffer: reading a pixel after a toggle, and the sprite loop of `draw` pixel by pixel. -/

namespace Sys2Proof.Machine

/-! ## Pixels -/

theorem pixelAt_on {fb : Framebuffer} {y x : Nat} (hy : y < 32) (hx : x < 64) : pixelAt fb y x = fb[y][x] := by
  simp [pixelAt, hy, hx]

theorem pixelAt_off {fb : Framebuffer} {y x : Nat} (h : ¬ (y < 32 ∧ x < 64)) : pixelAt fb y x = false := by
  simp [pixelAt, h]

theorem pixelAt_blank (y x : Nat) :
    pixelAt (Vector.replicate 32 (Vector.replicate 64 false)) y x = false := by
  unfold pixelAt; split <;> simp

/-- A toggle changes its own pixel and no other. -/
theorem pixelAt_togglePixel (fb : Framebuffer) {y x : Nat} (hy : y < 32) (hx : x < 64) (py px : Nat) :
    pixelAt (togglePixel fb y x) py px =
      if py = y ∧ px = x then !pixelAt fb y x else pixelAt fb py px := by
  by_cases hp : py < 32 ∧ px < 64
  · obtain ⟨hpy, hpx⟩ := hp
    rw [pixelAt_on hpy hpx, pixelAt_on hpy hpx, pixelAt_on hy hx]
    simp only [togglePixel, hy, hx, and_self, dite_true, Vector.getElem_set]
    by_cases h1 : y = py
    · subst h1
      by_cases h2 : x = px
      · subst h2; simp
      · simp [h2, Ne.symm h2]
    · simp [h1, Ne.symm h1]
  · rw [pixelAt_off hp, pixelAt_off hp]
    have : ¬ (py = y ∧ px = x) := by omega
    simp [this]

/-! ## The sprite loop

`b` refines the set `p` of sprite pixels over the framebuffer `fb`: its pixels are those of `fb` XORed with `p`, and
`hit` says whether a pixel of `p` on the canvas was lit in `fb`. -/

/-- `b` is what drawing the pixels in `p` on `fb` gives. -/
def Draws (fb : Framebuffer) (p : Nat → Nat → Bool) (b : Blit) : Prop :=
  (∀ py px, py < 32 → px < 64 → pixelAt b.fb py px = xor (pixelAt fb py px) (p py px))
    ∧ (b.hit = true ↔ ∃ py px, py < 32 ∧ px < 64 ∧ p py px = true ∧ pixelAt fb py px = true)

theorem draws_nothing (fb : Framebuffer) : Draws fb (fun _ _ => false) { fb := fb, hit := false } := by
  simp [Draws]

theorem Draws.congr {fb : Framebuffer} {p q : Nat → Nat → Bool} {b : Blit} (h : Draws fb p b)
    (hpq : ∀ py px, p py px = q py px) : Draws fb q b := by
  have : p = q := funext fun py => funext fun px => hpq py px
  exact this ▸ h

/-- One more pixel, not drawn before. -/
theorem Draws.pixel {fb : Framebuffer} {p : Nat → Nat → Bool} {b : Blit} (h : Draws fb p b) (isSet : Bool) (y x : Nat)
    (hnew : p y x = false) :
    Draws fb (fun py px => p py px || (isSet && decide (py = y ∧ px = x))) (blitPixel isSet y x b) := by
  obtain ⟨hfb, hhit⟩ := h
  unfold blitPixel
  by_cases hc : isSet = true ∧ x < 64 ∧ y < 32
  · obtain ⟨hset, hx, hy⟩ := hc
    subst hset
    simp only [hx, hy, and_self, if_true]
    constructor
    · intro py px hpy hpx
      simp only [pixelAt_togglePixel b.fb hy hx]
      by_cases he : py = y ∧ px = x
      · obtain ⟨rfl, rfl⟩ := he
        simp [hfb py px hpy hpx, hnew]
      · simp [he, hfb py px hpy hpx]
    · simp only [Bool.or_eq_true, hhit, hfb y x hy hx, hnew, Bool.xor_false]
      constructor
      · rintro (⟨py, px, a, b', c, d⟩ | hl)
        · exact ⟨py, px, a, b', by simp [c], d⟩
        · exact ⟨y, x, hy, hx, by simp, hl⟩
      · rintro ⟨py, px, a, b', c, d⟩
        simp only [Bool.true_and, decide_eq_true_eq] at c
        rcases c with c | ⟨rfl, rfl⟩
        · exact .inl ⟨py, px, a, b', c, d⟩
        · exact .inr d
  · simp only [hc, if_false]
    have hsame : ∀ py px, py < 32 → px < 64 → (p py px || (isSet && decide (py = y ∧ px = x))) = p py px := by
      intro py px hpy hpx
      by_cases he : py = y ∧ px = x
      · obtain ⟨rfl, rfl⟩ := he
        cases isSet <;> simp_all
      · simp [he]
    constructor
    · intro py px hpy hpx
      exact (hfb py px hpy hpx).trans (congrArg _ (hsame py px hpy hpx).symm)
    · rw [hhit]
      constructor
      · rintro ⟨py, px, a, b', c, d⟩
        exact ⟨py, px, a, b', (hsame py px a b').trans c, d⟩
      · rintro ⟨py, px, a, b', c, d⟩
        exact ⟨py, px, a, b', (hsame py px a b').symm.trans c, d⟩

/-- The pixels of the first `count` columns of one sprite row. -/
def rowPixel (row : Byte) (y x0 count py px : Nat) : Bool :=
  decide (py = y ∧ x0 ≤ px ∧ px < x0 + count) && row.getLsbD (7 - (px - x0))

theorem Draws.row {fb : Framebuffer} {p : Nat → Nat → Bool} {b : Blit} (h : Draws fb p b) (row : Byte) (y x0 : Nat)
    (hnew : ∀ px, p y px = false) (count : Nat) :
    Draws fb (fun py px => p py px || rowPixel row y x0 count py px) (blitRow row y x0 count b) := by
  induction count with
  | zero =>
    refine h.congr fun py px => ?_
    have : ¬ (py = y ∧ x0 ≤ px ∧ px < x0 + 0) := by omega
    simp only [rowPixel, this, decide_false, Bool.false_and, Bool.or_false]
  | succ c ih =>
    refine (ih.pixel (row.getLsbD (7 - c)) y (x0 + c) ?_).congr fun py px => ?_
    · simp [hnew, rowPixel]
    · by_cases he : py = y ∧ px = x0 + c
      · obtain ⟨rfl, rfl⟩ := he
        simp [rowPixel, hnew]
      · have : (py = y ∧ x0 ≤ px ∧ px < x0 + (c + 1)) ↔ (py = y ∧ x0 ≤ px ∧ px < x0 + c) := by omega
        simp only [rowPixel, this, he, decide_false, Bool.and_false, Bool.or_false]

/-- The loop of `draw` draws exactly the sprite's pixels. -/
theorem blitSprite_draws (s : State) (y0 x0 count : Nat) :
    Draws s.fb (spritePixel s y0 x0 count) (blitSprite s y0 x0 count) := by
  induction count with
  | zero =>
    refine (draws_nothing s.fb).congr fun py px => ?_
    have : ¬ (y0 ≤ py ∧ py < y0 + 0 ∧ x0 ≤ px ∧ px < x0 + 8) := by omega
    simp only [spritePixel, this, decide_false, Bool.false_and]
  | succ r ih =>
    refine (ih.row (s.memRead (s.indexed r)) (y0 + r) x0 ?_ 8).congr fun py px => ?_
    · intro px
      have : ¬ (y0 ≤ y0 + r ∧ y0 + r < y0 + r ∧ x0 ≤ px ∧ px < x0 + 8) := by omega
      simp only [spritePixel, this, decide_false, Bool.false_and]
    · by_cases he : py = y0 + r
      · subst he
        simp [spritePixel, rowPixel]
      · have : (y0 ≤ py ∧ py < y0 + (r + 1) ∧ x0 ≤ px ∧ px < x0 + 8) ↔
            (y0 ≤ py ∧ py < y0 + r ∧ x0 ≤ px ∧ px < x0 + 8) := by omega
        simp only [spritePixel, rowPixel, this, he, false_and, decide_false, Bool.false_and, Bool.or_false]

end Sys2Proof.Machine
end

