-- ==== Sys2Proof/Laws/PerInstr.lean ====
section
/-! SUPPORT. One lemma per constructor: its encoding matches the mask and pattern of its own row of
spec/opcode_table.json. -/

open Sys2Proof

/-- The word of `i` lies in `i`'s row of the table. -/
def Sys2Proof.Laws.EncodesRow.Statement (i : Instr) : Prop := encode i &&& (opcodeRow i).mask = (opcodeRow i).pattern

theorem Sys2Proof.Laws.EncodesRow.clear :
    Sys2Proof.Laws.EncodesRow.Statement .clear :=
  rfl

theorem Sys2Proof.Laws.EncodesRow.ret :
    Sys2Proof.Laws.EncodesRow.Statement .ret :=
  rfl

theorem Sys2Proof.Laws.EncodesRow.jump (nnn : Addr) :
    Sys2Proof.Laws.EncodesRow.Statement (.jump nnn) :=
  encodeA_mask ..

theorem Sys2Proof.Laws.EncodesRow.call (nnn : Addr) :
    Sys2Proof.Laws.EncodesRow.Statement (.call nnn) :=
  encodeA_mask ..

theorem Sys2Proof.Laws.EncodesRow.skipIfEq (x : Reg) (nn : Byte) :
    Sys2Proof.Laws.EncodesRow.Statement (.skipIfEq x nn) :=
  encodeXNN_mask ..

theorem Sys2Proof.Laws.EncodesRow.skipIfNeq (x : Reg) (nn : Byte) :
    Sys2Proof.Laws.EncodesRow.Statement (.skipIfNeq x nn) :=
  encodeXNN_mask ..

theorem Sys2Proof.Laws.EncodesRow.skipIfRegEq (x y : Reg) :
    Sys2Proof.Laws.EncodesRow.Statement (.skipIfRegEq x y) :=
  encodeXYN_maskN ..

theorem Sys2Proof.Laws.EncodesRow.loadImm (x : Reg) (nn : Byte) :
    Sys2Proof.Laws.EncodesRow.Statement (.loadImm x nn) :=
  encodeXNN_mask ..

theorem Sys2Proof.Laws.EncodesRow.addImm (x : Reg) (nn : Byte) :
    Sys2Proof.Laws.EncodesRow.Statement (.addImm x nn) :=
  encodeXNN_mask ..

theorem Sys2Proof.Laws.EncodesRow.mov (x y : Reg) :
    Sys2Proof.Laws.EncodesRow.Statement (.mov x y) :=
  encodeXYN_maskN ..

theorem Sys2Proof.Laws.EncodesRow.or (x y : Reg) :
    Sys2Proof.Laws.EncodesRow.Statement (.or x y) :=
  encodeXYN_maskN ..

theorem Sys2Proof.Laws.EncodesRow.and (x y : Reg) :
    Sys2Proof.Laws.EncodesRow.Statement (.and x y) :=
  encodeXYN_maskN ..

theorem Sys2Proof.Laws.EncodesRow.xor (x y : Reg) :
    Sys2Proof.Laws.EncodesRow.Statement (.xor x y) :=
  encodeXYN_maskN ..

theorem Sys2Proof.Laws.EncodesRow.add (x y : Reg) :
    Sys2Proof.Laws.EncodesRow.Statement (.add x y) :=
  encodeXYN_maskN ..

theorem Sys2Proof.Laws.EncodesRow.sub (x y : Reg) :
    Sys2Proof.Laws.EncodesRow.Statement (.sub x y) :=
  encodeXYN_maskN ..

theorem Sys2Proof.Laws.EncodesRow.shr (x y : Reg) :
    Sys2Proof.Laws.EncodesRow.Statement (.shr x y) :=
  encodeXYN_maskN ..

theorem Sys2Proof.Laws.EncodesRow.subn (x y : Reg) :
    Sys2Proof.Laws.EncodesRow.Statement (.subn x y) :=
  encodeXYN_maskN ..

theorem Sys2Proof.Laws.EncodesRow.shl (x y : Reg) :
    Sys2Proof.Laws.EncodesRow.Statement (.shl x y) :=
  encodeXYN_maskN ..

theorem Sys2Proof.Laws.EncodesRow.skipIfRegNeq (x y : Reg) :
    Sys2Proof.Laws.EncodesRow.Statement (.skipIfRegNeq x y) :=
  encodeXYN_maskN ..

theorem Sys2Proof.Laws.EncodesRow.loadIndex (nnn : Addr) :
    Sys2Proof.Laws.EncodesRow.Statement (.loadIndex nnn) :=
  encodeA_mask ..

theorem Sys2Proof.Laws.EncodesRow.jumpOffset (nnn : Addr) :
    Sys2Proof.Laws.EncodesRow.Statement (.jumpOffset nnn) :=
  encodeA_mask ..

theorem Sys2Proof.Laws.EncodesRow.random (x : Reg) (nn : Byte) :
    Sys2Proof.Laws.EncodesRow.Statement (.random x nn) :=
  encodeXNN_mask ..

theorem Sys2Proof.Laws.EncodesRow.draw (x y : Reg) (n : Nibble) :
    Sys2Proof.Laws.EncodesRow.Statement (.draw x y n) :=
  encodeXYN_mask ..

theorem Sys2Proof.Laws.EncodesRow.skipIfKey (x : Reg) :
    Sys2Proof.Laws.EncodesRow.Statement (.skipIfKey x) :=
  encodeXNN_maskNN ..

theorem Sys2Proof.Laws.EncodesRow.skipIfNotKey (x : Reg) :
    Sys2Proof.Laws.EncodesRow.Statement (.skipIfNotKey x) :=
  encodeXNN_maskNN ..

theorem Sys2Proof.Laws.EncodesRow.getDelay (x : Reg) :
    Sys2Proof.Laws.EncodesRow.Statement (.getDelay x) :=
  encodeXNN_maskNN ..

theorem Sys2Proof.Laws.EncodesRow.waitForKey (x : Reg) :
    Sys2Proof.Laws.EncodesRow.Statement (.waitForKey x) :=
  encodeXNN_maskNN ..

theorem Sys2Proof.Laws.EncodesRow.setDelay (x : Reg) :
    Sys2Proof.Laws.EncodesRow.Statement (.setDelay x) :=
  encodeXNN_maskNN ..

theorem Sys2Proof.Laws.EncodesRow.setSound (x : Reg) :
    Sys2Proof.Laws.EncodesRow.Statement (.setSound x) :=
  encodeXNN_maskNN ..

theorem Sys2Proof.Laws.EncodesRow.addIndex (x : Reg) :
    Sys2Proof.Laws.EncodesRow.Statement (.addIndex x) :=
  encodeXNN_maskNN ..

theorem Sys2Proof.Laws.EncodesRow.spriteAddr (x : Reg) :
    Sys2Proof.Laws.EncodesRow.Statement (.spriteAddr x) :=
  encodeXNN_maskNN ..

theorem Sys2Proof.Laws.EncodesRow.storeBcd (x : Reg) :
    Sys2Proof.Laws.EncodesRow.Statement (.storeBcd x) :=
  encodeXNN_maskNN ..

theorem Sys2Proof.Laws.EncodesRow.storeRegs (x : Reg) :
    Sys2Proof.Laws.EncodesRow.Statement (.storeRegs x) :=
  encodeXNN_maskNN ..

theorem Sys2Proof.Laws.EncodesRow.loadRegs (x : Reg) :
    Sys2Proof.Laws.EncodesRow.Statement (.loadRegs x) :=
  encodeXNN_maskNN ..

theorem Sys2Proof.Laws.EncodesRow.sys (nnn : Addr) :
    Sys2Proof.Laws.EncodesRow.Statement (.sys nnn) :=
  encodeA_mask ..

theorem Sys2Proof.Laws.EncodesRow.reserved (w : Word) :
    Sys2Proof.Laws.EncodesRow.Statement (.reserved w) :=
  BitVec.and_zero ..
end

