-- ==== Sys2Proof/Laws/Tick.lean ====
section
/-! SUPPORT. What a step can be (a host command or a tick), what a tick is in each mode, and what the few meanings that
branch can answer. -/

namespace Sys2Proof.Machine

/-! ## Steps -/

theorem step_command {s : State} {c : HostCommand} {q : List HostCommand} (h : s.hostQueue = c :: q) :
    step s = hostCommand c { s with hostQueue := q } := by
  simp [step, advance, h]

theorem step_tick {s : State} {q : List HostCommand} (h : ticksNext s q) : step s = tick { s with hostQueue := q } := by
  rcases h with ⟨h, rfl⟩ | h
  · have hs : { s with hostQueue := [] } = s := by cases s; simp_all
    rw [step, advance, h, hs]
  · exact step_command h

/-- Every step is a tick or a command other than one. -/
theorem step_cases (s : State) :
    (∃ q, ticksNext s q ∧ step s = tick { s with hostQueue := q })
      ∨ ∃ c q, c ≠ .tick ∧ s.hostQueue = c :: q ∧ step s = hostCommand c { s with hostQueue := q } := by
  cases hq : s.hostQueue with
  | nil => exact .inl ⟨[], .inl ⟨hq, rfl⟩, step_tick (.inl ⟨hq, rfl⟩)⟩
  | cons c q =>
    by_cases hc : c = .tick
    · subst hc
      exact .inl ⟨q, .inr hq, step_command hq⟩
    · exact .inr ⟨c, q, hc, rfl, step_command hq⟩

/-! ## Ticks -/

theorem tick_idle {s : State} (h : s.mode = .idle) : tick s = .next s := by simp [tick, h]

theorem tick_awaiting {s : State} {x : Reg} (h : s.mode = .awaitingKey x) : tick s = .next (tickAwaiting s) := by
  simp [tick, h]

theorem tick_running {s : State} (h : s.mode = .running) :
    tick s = finishTick (exec (decode s.fetchWord) s.advancePc) := by
  simp [tick, h, tickRunning]

/-- A waiting tick leaves the state or steps its timers. -/
theorem tickAwaiting_cases (s : State) : tickAwaiting s = s ∨ tickAwaiting s = s.timerStep := by
  unfold tickAwaiting; split <;> simp

/-! ## The meanings that branch -/

theorem reservedWord_next {w : Word} {s t : State} (h : reservedWord w s = .next t) : t = s := by
  unfold reservedWord at h; split at h <;> simp_all

theorem execCall_next {nnn : Addr} {s t : State} (h : execCall nnn s = .next t) :
    t = s ∨ t = (s.push s.pc).setPc nnn.toNat := by
  unfold execCall at h; split at h <;> simp_all

theorem execRet_next {s t : State} (h : execRet s = .next t) : t = s ∨ ∃ a, t = s.drop.setPc a := by
  unfold execRet at h; split at h <;> simp_all
  exact .inr ⟨_, h.symm⟩

/-- A refusal comes from `sys` or `reserved`, and only under `RESERVED_POLICY = refuse`. -/
theorem exec_refused {i : Instr} {s : State} {r : Refusal} (h : exec i s = .refused r) :
    s.cfg.reservedPolicy = .refuse ∧ r = .reservedWord (encode i) ∧ (opcodeRow i).priority ≠ 0 := by
  cases i with
  | sys nnn =>
    cases hp : s.cfg.reservedPolicy <;> simp_all [exec, execSys, reservedWord, opcodeRow]
  | reserved w =>
    cases hp : s.cfg.reservedPolicy <;> simp_all [exec, execReserved, reservedWord, opcodeRow]
  | ret => simp only [exec, execRet] at h; split at h <;> simp at h
  | call nnn => simp only [exec, execCall] at h; split at h <;> simp at h
  | _ => cases h

/-! ## What every meaning keeps -/

/-- No meaning touches the configuration or the recorded image. -/
theorem exec_cfg_image {i : Instr} {s t : State} (h : exec i s = .next t) : t.cfg = s.cfg ∧ t.image = s.image := by
  cases i with
  | ret => rcases execRet_next h with rfl | ⟨a, rfl⟩ <;> simp
  | call nnn => rcases execCall_next h with rfl | rfl <;> simp
  | sys nnn => simp [reservedWord_next h]
  | reserved w => simp [reservedWord_next h]
  | _ => cases h; simp

/-- Every meaning keeps memory in canonical form. -/
theorem exec_mem_wf {i : Instr} {s t : State} (hm : Memory.wf s.mem = true) (h : exec i s = .next t) :
    Memory.wf t.mem = true := by
  cases i with
  | ret => rcases execRet_next h with rfl | ⟨a, rfl⟩ <;> simpa using hm
  | call nnn => rcases execCall_next h with rfl | rfl <;> simpa using hm
  | sys nnn => exact (reservedWord_next h) ▸ hm
  | reserved w => exact (reservedWord_next h) ▸ hm
  | storeBcd x => cases h; exact State.memWrite_wf (State.memWrite_wf (State.memWrite_wf hm _ _) _ _) _ _
  | storeRegs x => cases h; exact State.storeBlock_wf hm _
  | _ => cases h; simpa using hm

/-- Every meaning keeps PC below 4096. -/
theorem exec_pc_below {i : Instr} {s t : State} (hp : s.pc.toNat < memSize) (h : exec i s = .next t) :
    t.pc.toNat < memSize := by
  cases i with
  | ret =>
    rcases execRet_next h with rfl | ⟨a, rfl⟩
    · exact hp
    · exact State.setPc_below ..
  | call nnn =>
    rcases execCall_next h with rfl | rfl
    · exact hp
    · exact State.setPc_below ..
  | sys nnn => exact (reservedWord_next h) ▸ hp
  | reserved w => exact (reservedWord_next h) ▸ hp
  | jump | jumpOffset => cases h; exact State.setPc_below ..
  | skipIfEq | skipIfNeq | skipIfRegEq | skipIfRegNeq | skipIfKey | skipIfNotKey =>
    cases h; exact State.skipIf_below hp _
  | _ => cases h; simpa using hp

/-- An instruction that runs does not make the engine idle. -/
theorem exec_mode_ne_idle {i : Instr} {s t : State} (hm : s.mode ≠ .idle) (h : exec i s = .next t) : t.mode ≠ .idle := by
  cases i with
  | ret => rcases execRet_next h with rfl | ⟨a, rfl⟩ <;> simpa using hm
  | call nnn => rcases execCall_next h with rfl | rfl <;> simpa using hm
  | sys nnn => exact (reservedWord_next h) ▸ hm
  | reserved w => exact (reservedWord_next h) ▸ hm
  | waitForKey x => cases h; simp
  | _ => cases h; simpa using hm

/-! ## Key presses -/

theorem keyPress_cases (k : Key) (s : State) :
    keyPress k s = s
      ∨ ∃ x, s.mode = .awaitingKey x ∧ keyPress k s = { s.setReg x (BitVec.ofNat 8 k.val) with mode := .running } := by
  unfold keyPress
  cases h : s.mode <;> simp

end Sys2Proof.Machine
end

