-- ==== Sys2Proof/Tests/Slice0.lean ====
section
/-! SUPPORT. Tests of single steps against the vectors of spec/95_test_vectors.md (named in each section's comment), the
refusals of the well-formedness check, a word of every row written out bit by bit, and a witness for the hypotheses of
each obligation that has any. Every expected value is the spec's, none is the model's own answer. -/

namespace Sys2Proof.Tests

open Sys2Proof Sys2Proof.Machine

/-! ## Small states -/

/-- The state after reset, made ready to run. -/
def ready : State := { State.reset with mode := .running, image := some [] }

/-- The registers of the list set in `s`. -/
def setRegs (s : State) (l : List (Reg × Byte)) : State := l.foldl (fun t p => t.setReg p.1 p.2) s

/-- The bytes of the list stored from `a` up in `s`. -/
def setBytes (s : State) (a : Nat) (l : List Byte) : State := { s with mem := Memory.writeBytes s.mem a l }

/-- The pixels of the list, row first, lit in `s`. -/
def lit (s : State) (l : List (Nat × Nat)) : State :=
  { s with fb := l.foldl (fun fb p => togglePixel fb p.1 p.2) s.fb }

/-- What `f` sees in the next state of an outcome, if there is one. -/
def look {α : Type} (o : Host.Outcome State Fault Refusal) (f : State → α) : Option α :=
  match o with
  | .next t => some (f t)
  | .fault _ => none
  | .refused _ => none

/-- Whether an outcome is a refusal, and of which word. -/
def refusedWord (o : Host.Outcome State Fault Refusal) : Option Word :=
  match o with
  | .refused (.reservedWord w) => some w
  | .refused (.notModelled _) => none
  | .next _ => none
  | .fault _ => none

/-- One tick in which `s` runs the word `w`. -/
def run (s : State) (w : Nat) : Host.Outcome State Fault Refusal := step (s.withFetchWord 16 w)

/-- The registers V1 and VF. -/
def v1vf (t : State) : Byte × Byte := (t.reg 1, t.reg regF)

/-- A state for the ALU rows: V1, V2, and VF = 0x55 so that an unchanged VF shows. -/
def alu (a b : Byte) : State := setRegs ready [(1, a), (2, b), (regF, 0x55)]

/-- The other value of `FLAG_ORDER`. -/
def resultFirst (s : State) : State := { s with cfg := { s.cfg with flagOrder := .resultThenFlag } }

/-! ## Well-formedness: an ill-formed term for each check, and a well-formed neighbour (30_encoding.md R51) -/

theorem test_sys_00E0_is_ill_formed : (Instr.sys 0x0E0).wellFormed = false := by decide
theorem test_sys_00EE_is_ill_formed : (Instr.sys 0x0EE).wellFormed = false := by decide
theorem test_sys_00E1_is_well_formed : (Instr.sys 0x0E1).wellFormed = true := by decide

theorem test_listed_words_are_no_reserved_terms :
    [0x00E0, 0x00E1, 0x1200, 0x2300, 0x3310, 0x4310, 0x5120, 0x6A05, 0x7101, 0x8120, 0x8127, 0x812E, 0x9120, 0xA300,
      0xB300, 0xC10F, 0xD121, 0xE19E, 0xE1A1, 0xF107, 0xF10A, 0xF115, 0xF118, 0xF11E, 0xF129, 0xF133, 0xF155,
      0xF165].all (fun w => (Instr.reserved w).wellFormed == false) = true := by decide

theorem test_reserved_words_are_reserved_terms :
    [0x5121, 0x512F, 0x8128, 0x812D, 0x812F, 0x9121, 0xE19F, 0xE100, 0xF100, 0xFFFF].all
      (fun w => (Instr.reserved w).wellFormed) = true := by decide

/-! ## Decoding: words written out from 30_encoding.md R46, R49 and R50 -/

theorem test_decode_family_0 :
    decode 0b0000000011100000 = .clear ∧ decode 0b0000000011101110 = .ret
      ∧ decode 0b0000000100100011 = .sys 0x123 := by decide

theorem test_decode_addresses :
    decode 0b0001001000110100 = .jump 0x234 ∧ decode 0b0010001100000001 = .call 0x301
      ∧ decode 0b1010111111111110 = .loadIndex 0xFFE ∧ decode 0b1011000100100011 = .jumpOffset 0x123 := by decide

theorem test_decode_register_and_byte :
    decode 0b0011001100010000 = .skipIfEq 3 0x10 ∧ decode 0b0100001100010000 = .skipIfNeq 3 0x10
      ∧ decode 0b0110101000000101 = .loadImm 0xA 0x05 ∧ decode 0b0111000111111111 = .addImm 1 0xFF
      ∧ decode 0b1100111110001111 = .random 0xF 0x8F := by decide

theorem test_decode_two_registers :
    decode 0b0101000100100000 = .skipIfRegEq 1 2 ∧ decode 0b1001000100100000 = .skipIfRegNeq 1 2 := by decide

theorem test_decode_family_8 :
    decode 0b1000000100100000 = .mov 1 2 ∧ decode 0b1000000100100001 = .or 1 2
      ∧ decode 0b1000000100100010 = .and 1 2 ∧ decode 0b1000000100100011 = .xor 1 2
      ∧ decode 0b1000000100100100 = .add 1 2 ∧ decode 0b1000000100100101 = .sub 1 2
      ∧ decode 0b1000000100100110 = .shr 1 2 ∧ decode 0b1000000100100111 = .subn 1 2
      ∧ decode 0b1000000100101110 = .shl 1 2 := by decide

theorem test_decode_draw : decode 0b1101000100101111 = .draw 1 2 0xF := by decide

theorem test_decode_keys : decode 0b1110001010011110 = .skipIfKey 2 ∧ decode 0b1110001010100001 = .skipIfNotKey 2 := by
  decide

theorem test_decode_family_F :
    decode 0b1111000100000111 = .getDelay 1 ∧ decode 0b1111000100001010 = .waitForKey 1
      ∧ decode 0b1111000100010101 = .setDelay 1 ∧ decode 0b1111000100011000 = .setSound 1
      ∧ decode 0b1111000100011110 = .addIndex 1 ∧ decode 0b1111000100101001 = .spriteAddr 1
      ∧ decode 0b1111000100110011 = .storeBcd 1 ∧ decode 0b1111000101010101 = .storeRegs 1
      ∧ decode 0b1111000101100101 = .loadRegs 1 := by decide

theorem test_decode_reserved :
    decode 0b0101000100100001 = .reserved 0x5121 ∧ decode 0b1000000100101111 = .reserved 0x812F
      ∧ decode 0b1001000100100001 = .reserved 0x9121 ∧ decode 0b1110000110011111 = .reserved 0xE19F
      ∧ decode 0b1111000100000000 = .reserved 0xF100 := by decide

theorem test_decode_bytes :
    decodeBytes [0x6A, 0x05, 0x12] = .ok (.loadImm 0xA 0x05, [0x12]) ∧ decodeBytes [0x6A] = .error .truncated := ⟨rfl, rfl⟩

theorem test_encode : encode (.add 0xA 0xB) = 0x8AB4 ∧ encodeBytes (.draw 1 2 0xF) = [0xD1, 0x2F] := by decide

theorem test_table_word : decodeTableWord 16 0x1234 = some (.jump 0x234) := by decide

/-! ## Fetch: DEC1 to DEC9 -/

theorem test_DEC1 : look (step (setBytes ready 0x200 [0x12, 0x34])) (fun t => t.pc) = some 0x234 := by decide

theorem test_DEC2 :
    look (step (setBytes (ready.setPc 0x201) 0x201 [0x60, 0x7F])) (fun t => (t.reg 0, t.pc)) = some (0x7F, 0x203) := by
  decide

theorem test_DEC3 :
    look (step (setBytes (ready.setPc 0xFFF) 0xFFF [0x6A, 0x05])) (fun t => (t.reg 0xA, t.pc, t.memRead 0))
      = some (0x05, 0x001, 0x05) := by decide

theorem test_DEC4_DEC6 :
    look (run ready 0x0000) (fun t => t.pc) = some 0x202 ∧ look (run ready 0x0123) (fun t => t.pc) = some 0x202 := by decide

/-- `RESERVED_POLICY = refuse`. -/
def refusing : State := { ready with cfg := { defaultConfig with reservedPolicy := .refuse } }

theorem test_DEC6_refuse :
    refusedWord (run refusing 0x0123) = some 0x0123 ∧ refusedWord (run refusing 0x5121) = some 0x5121 := by decide

theorem test_DEC7_DEC9 :
    look (run (alu 0x07 0x07) 0x5121) (fun t => t.pc) = some 0x202 ∧ look (run ready 0xFFFF) (fun t => t.pc) = some 0x202 := by
  decide

/-! ## Control flow: CF1 to CF17 -/

/-- Two entries in use, the newer 0x456. -/
def twoCalls : State := { ready with sp := 2, stack := ready.stack.set 1 0x456 }

/-- A full stack of zeros. -/
def fullStack : State := { ready with sp := 16 }

theorem test_CF1_jump : look (run ready 0x1000) (fun t => t.pc) = some 0x000 := by decide

theorem test_CF2_call :
    look (run (ready.setPc 0xFFE) 0x2300) (fun t => (t.stack[0], t.sp, t.pc)) = some (0x000, 1, 0x300) := by decide

theorem test_CF4_call_full :
    look (run (fullStack.setPc 0x300) 0x2400) (fun t => (t.pc, t.sp, t.stack)) = some (0x302, 16, fullStack.stack) := by decide

theorem test_CF3_return_empty : look (run (ready.setPc 0x300) 0x00EE) (fun t => (t.pc, t.sp)) = some (0x302, 0) := by decide

theorem test_CF5_return : look (run (twoCalls.setPc 0x300) 0x00EE) (fun t => (t.pc, t.sp)) = some (0x456, 1) := by decide

theorem test_CF6_CF7_skip_if_eq :
    look (run (setRegs (ready.setPc 0xFFC) [(3, 0x10)]) 0x3310) (fun t => t.pc) = some 0x000
      ∧ look (run (setRegs (ready.setPc 0xFFE) [(3, 0x10)]) 0x3310) (fun t => t.pc) = some 0x002 := by decide

theorem test_CF8_CF9_skip_if_neq :
    look (run (setRegs ready [(3, 0x10)]) 0x4310) (fun t => t.pc) = some 0x202
      ∧ look (run (setRegs ready [(3, 0x11)]) 0x4310) (fun t => t.pc) = some 0x204 := by decide

theorem test_CF10_CF11_skip_if_reg_eq :
    look (run (alu 0x07 0x08) 0x5120) (fun t => t.pc) = some 0x202
      ∧ look (run (alu 0x07 0x08) 0x5110) (fun t => t.pc) = some 0x204 := by decide

theorem test_CF12_CF13_skip_if_reg_neq :
    look (run (alu 0x07 0x08) 0x9110) (fun t => t.pc) = some 0x202
      ∧ look (run (alu 0x07 0x08) 0x9120) (fun t => t.pc) = some 0x204 := by decide

theorem test_CF14_CF15_jump_offset :
    look (run (setRegs ready [(0, 0x02)]) 0xBFFF) (fun t => t.pc) = some 0x001
      ∧ look (run (setRegs ready [(0, 0xFF)]) 0xB0FF) (fun t => t.pc) = some 0x1FE := by decide

/-! ## ALU: A1 to A31, AF1 to AF6, S2 -/

theorem test_A1_load_imm : look (run (alu 0x00 0x00) 0x61AB) v1vf = some (0xAB, 0x55) := by decide

theorem test_A3_add_imm : look (run (alu 0x02 0x00) 0x71FF) v1vf = some (0x01, 0x55) := by decide

theorem test_A4_add_imm_VF : look (run (alu 0x02 0x00) 0x7F01) v1vf = some (0x02, 0x56) := by decide

theorem test_A5_mov : look (run (alu 0x00 0xAB) 0x8120) v1vf = some (0xAB, 0x55) := by decide

theorem test_A6_or : look (run (alu 0xF0 0x0F) 0x8121) v1vf = some (0xFF, 0x55) := by decide

theorem test_A7_and : look (run (alu 0xF0 0x0F) 0x8122) v1vf = some (0x00, 0x55) := by decide

theorem test_A8_xor : look (run (alu 0xF0 0x3C) 0x8123) v1vf = some (0xCC, 0x55) := by decide

theorem test_A10_A11_add :
    look (run (alu 0xFF 0x01) 0x8124) v1vf = some (0x00, 1) ∧ look (run (alu 0x7F 0x01) 0x8124) v1vf = some (0x80, 0) := by
  decide

theorem test_A28_add_VF_source : look (run (setRegs ready [(1, 0x01), (regF, 0xFF)]) 0x81F4) v1vf = some (0x00, 1) := by decide

theorem test_A15_A16_sub :
    look (run (alu 0x05 0x05) 0x8125) v1vf = some (0x00, 1) ∧ look (run (alu 0x03 0x05) 0x8125) v1vf = some (0xFE, 0) := by
  decide

theorem test_A19_A20_subn :
    look (run (alu 0x05 0x03) 0x8127) v1vf = some (0xFE, 0) ∧ look (run (alu 0x03 0x05) 0x8127) v1vf = some (0x02, 1) := by
  decide

theorem test_A22_A23_shr :
    look (run (alu 0x01 0xFF) 0x8126) v1vf = some (0x00, 1) ∧ look (run (alu 0xFE 0xFF) 0x8126) v1vf = some (0x7F, 0) := by
  decide

theorem test_A25_A26_shl :
    look (run (alu 0x80 0x01) 0x812E) v1vf = some (0x00, 1) ∧ look (run (alu 0x7F 0x01) 0x812E) v1vf = some (0xFE, 0) := by
  decide

theorem test_A29_A30_random :
    look (run { ready with randIn := [0xFF] } 0xC10F) (fun t => (t.reg 1, t.randIn)) = some (0x0F, [])
      ∧ look (run { ready with randIn := [0xA7] } 0xC100) (fun t => t.reg 1) = some 0x00 := by decide

/-- The row of AF with V2 and VF set. -/
def af (f b : Byte) : State := setRegs ready [(2, b), (regF, f)]

theorem test_AF1_AF2_AF3_flag_then_result :
    look (run (af 0x80 0x90) 0x8F24) (fun t => t.reg regF) = some 0x10
      ∧ look (run (af 0x10 0x20) 0x8F25) (fun t => t.reg regF) = some 0xF0
      ∧ look (run (af 0x02 0x00) 0x8F06) (fun t => t.reg regF) = some 0x01 := by decide

theorem test_AF1_AF2_AF3_result_then_flag :
    look (run (resultFirst (af 0x80 0x90)) 0x8F24) (fun t => t.reg regF) = some 0x01
      ∧ look (run (resultFirst (af 0x10 0x20)) 0x8F25) (fun t => t.reg regF) = some 0x00
      ∧ look (run (resultFirst (af 0x02 0x00)) 0x8F06) (fun t => t.reg regF) = some 0x00 := by decide

/-! ## Index and memory: M1 to M16, S5 -/

/-- I and some registers set. -/
def idx (i : Word) (l : List (Reg × Byte)) : State := { setRegs ready l with i := i }

theorem test_M1_load_index : look (run ready 0xAFFF) (fun t => t.i) = some 0x0FFF := by decide

theorem test_M2_M4_add_index :
    look (run (idx 0x0FFF [(1, 0x01)]) 0xF11E) (fun t => t.i) = some 0x1000
      ∧ look (run (idx 0xFFF0 [(1, 0xFF)]) 0xF11E) (fun t => t.i) = some 0x00EF := by decide

theorem test_M6_M7_sprite_addr :
    look (run (idx 0 [(1, 0x0F)]) 0xF129) (fun t => t.i) = some 0x004B
      ∧ look (run (idx 0 [(1, 0x1A)]) 0xF129) (fun t => t.i) = some 0x0032 := by decide

theorem test_S5_store_bcd :
    look (run (idx 0x300 [(7, 0xFF)]) 0xF733) (fun t => (t.memRead 0x300, t.memRead 0x301, t.memRead 0x302, t.i))
      = some (2, 5, 5, 0x300) := by decide

theorem test_M11_store_bcd_wraps :
    look (run (setBytes (idx 0xFFF [(1, 0x09)]) 0 [7, 7, 7]) 0xF133)
      (fun t => (t.memRead 0xFFF, t.memRead 0x000, t.memRead 0x001, t.memRead 0x002)) = some (0, 0, 9, 7) := by decide

theorem test_M12_store_regs :
    look (run (setBytes (idx 0x500 [(0, 0xAB)]) 0x501 [0x77]) 0xF055) (fun t => (t.memRead 0x500, t.memRead 0x501, t.i))
      = some (0xAB, 0x77, 0x500) := by decide

theorem test_M13_store_regs_wraps :
    look (run (idx 0xFF8 [(7, 0x07), (8, 0x08), (15, 0x0F)]) 0xFF55)
      (fun t => (t.memRead 0xFFF, t.memRead 0x000, t.memRead 0x007, t.i)) = some (0x07, 0x08, 0x0F, 0xFF8) := by decide

theorem test_M14_load_regs :
    look (run (setBytes (idx 0x600 []) 0x600 [0x10, 0x11, 0x12]) 0xF165) (fun t => (t.reg 0, t.reg 1, t.reg 2, t.i))
      = some (0x10, 0x11, 0x00, 0x600) := by decide

theorem test_M16_load_regs :
    look (run (setBytes (idx 0x300 [(1, 0x44)]) 0x300 [0x99]) 0xF065) (fun t => (t.reg 0, t.reg 1)) = some (0x99, 0x44) := by
  decide

/-! ## Display: D2, D4, D6, D8, D9 and S4 -/

/-- A sprite at 0x300, V1 and V2 set, VF 0x55. -/
def sprite (l : List Byte) (x y : Byte) : State := { setBytes (alu x y) 0x300 l with i := 0x300 }

/-- The pixels of the list, VF and `frame_dirty`. -/
def seen (l : List (Nat × Nat)) (t : State) : List Bool × Byte × Bool :=
  (l.map (fun p => pixelAt t.fb p.1 p.2), t.reg regF, t.frameDirty)

theorem test_S4_clear :
    look (run (lit (alu 0 0) [(0, 0), (31, 63)]) 0x00E0) (seen [(0, 0), (31, 63)]) = some ([false, false], 0x55, true) := by
  decide

theorem test_D4_draw_clips :
    look (run (sprite [0xFF] 0x3C 0) 0xD121) (seen [(0, 59), (0, 60), (0, 63), (0, 0), (1, 0)])
      = some ([false, true, true, false, false], 0, true) := by decide

theorem test_D6_draw_collides :
    look (run (lit (sprite [0xC0] 0 0) [(0, 0)]) 0xD121) (seen [(0, 0), (0, 1)]) = some ([false, true], 1, true) := by decide

theorem test_D7_draw_no_rows :
    look (run (lit (sprite [0xFF] 0 0) [(0, 0)]) 0xD120) (seen [(0, 0), (0, 1)]) = some ([true, false], 0, true) := by decide

theorem test_D8_draw_VF_is_the_column :
    look (run (setRegs (sprite [0x80] 0 0) [(regF, 0x05)]) 0xDF21) (seen [(0, 5), (0, 0)]) = some ([true, false], 0, true) := by
  decide

theorem test_D9_draw_wraps_in_memory :
    look (run { setBytes (alu 0 0) 0xFFF [0x80, 0x40] with i := 0xFFF } 0xD122) (seen [(0, 0), (1, 1), (1, 0)])
      = some ([true, true, false], 0, true) := by decide

/-! ## Keys and timers: K1 to K18 -/

/-- V1 names a key, and the keys of `level` are pressed. -/
def keyed (level : BitVec 16) (k : Byte) : State := { setRegs ready [(1, k)] with keysIn := level }

/-- `KEY_INDEX_POLICY = never_pressed`. -/
def neverAbove (s : State) : State := { s with cfg := { s.cfg with keyIndexPolicy := .neverPressed } }

theorem test_K1_K2_skip_if_key :
    look (run (keyed 0x0020 0x05) 0xE19E) (fun t => t.pc) = some 0x204
      ∧ look (run (keyed 0x0000 0x05) 0xE19E) (fun t => t.pc) = some 0x202 := by decide

theorem test_K3_key_above_F :
    look (run (keyed 0x0020 0x15) 0xE19E) (fun t => t.pc) = some 0x204
      ∧ look (run (neverAbove (keyed 0x0020 0x15)) 0xE19E) (fun t => t.pc) = some 0x202 := by decide

theorem test_K4_K5_skip_if_not_key :
    look (run (keyed 0x0000 0x03) 0xE1A1) (fun t => t.pc) = some 0x204
      ∧ look (run (keyed 0x0008 0x03) 0xE1A1) (fun t => t.pc) = some 0x202 := by decide

theorem test_K7_wait_for_key :
    look (run { ready with dt := 0x02 } 0xF30A) (fun t => (t.mode, t.pc, t.dt)) = some (.awaitingKey 3, 0x202, 0x01) := by decide

/-- A wait for a key into V3. -/
def waiting : State := { ready with mode := .awaitingKey 3, dt := 0x01, pc := 0x202 }

/-- `TIMERS_WHILE_WAITING = hold`. -/
def holding (s : State) : State := { s with cfg := { s.cfg with timersWhileWaiting := .hold } }

theorem test_K8_waiting_tick :
    look (step waiting) (fun t => (t.dt, t.pc, t.mode)) = some (0x00, 0x202, .awaitingKey 3)
      ∧ look (step (holding waiting)) (fun t => (t.dt, t.pc)) = some (0x01, 0x202) := by decide

theorem test_K9_K10_key_press :
    look (step { waiting with hostQueue := [.keyPress 7] }) (fun t => (t.reg 3, t.mode, t.dt)) = some (0x07, .running, 0x01)
      ∧ look (step { ready with hostQueue := [.keyPress 7] }) (fun t => (t.reg 3, t.mode)) = some (0x00, .running) := by decide

theorem test_K12_K13_set_delay :
    look (run (setRegs ready [(0, 0x05)]) 0xF015) (fun t => t.dt) = some 0x04
      ∧ look (run { ready with dt := 0x09 } 0xF015) (fun t => t.dt) = some 0x00 := by decide

theorem test_K15_get_delay : look (run { ready with dt := 0x04 } 0xF107) (fun t => (t.reg 1, t.dt)) = some (0x04, 0x03) := by
  decide

theorem test_K17_set_sound : look (run (setRegs ready [(0, 0xFF)]) 0xF018) (fun t => t.st) = some 0xFE := by decide

/-! ## Reset and load: R1 to R4 and K11 -/

theorem test_R1_idle_tick : look (step State.reset) (fun t => (t.pc, t.mode)) = some (0x200, .idle) := by decide

theorem test_R2_load :
    look (step { State.reset with hostQueue := [.load [0x6A, 0x05, 0x12, 0x00]] })
      (fun t => (t.memRead 0x200, t.memRead 0x201, t.memRead 0x202, t.pc, t.mode)) = some (0x6A, 0x05, 0x12, 0x200, .running) := by
  decide

theorem test_R3_reset :
    look (step { lit (alu 1 2) [(0, 0)] with image := some [0x6A], dt := 7, frameDirty := true, hostQueue := [.reset] })
      (fun t => (t.reg 1, t.memRead 0x200, pixelAt t.fb 0 0, t.dt, t.frameDirty, t.mode))
      = some (0, 0x6A, false, 0, false, .running) := by decide

theorem test_K11_reset_ends_a_wait :
    look (step { waiting with hostQueue := [.reset] }) (fun t => (t.mode, t.pc)) = some (.running, 0x200) := by decide

/-- A font of two bytes at 0xFFF: the second byte wraps to 0x000. -/
def withFont (s : State) : State := { s with cfg := { s.cfg with fontBase := 0x0FFF, fontImage := some [0x11, 0x22] } }

theorem test_font_at_reset :
    look (step { withFont ready with hostQueue := [.reset] }) (fun t => (t.memRead 0xFFF, t.memRead 0)) = some (0x11, 0x22) := by
  decide

/-! ## Witnesses: states and operands that meet the hypotheses of each obligation -/

theorem witness_DecodeOfEncodeIsTheInstruction :
    (Instr.sys 0x0E1).wellFormed = true ∧ (Instr.reserved 0xFFFF).wellFormed = true ∧ (Instr.draw 15 0 15).wellFormed = true := by
  decide

theorem witness_DecodedRowIsTheUniqueMatch :
    ∃ r ∈ opcodeTable, r.matchesWord 0x00E0 = true ∧ r ≠ opcodeRow (decode 0x00E0) := ⟨opcodeRow (.sys 0), by decide⟩

theorem witness_ByteWriteChangesThatByteAlone :
    Memory.wf ready.mem = true ∧ 0x1FFF % 0x1000 = 0x0FFF % 0x1000 ∧ 0 % 0x1000 ≠ 0x0FFF % 0x1000 := by decide

theorem witness_StoredByteIsSeenByTheNextFetch :
    ∃ s t : State, Memory.wf s.mem = true ∧ exec (.storeRegs 15) s = .next t ∧ (15 : Reg) ≤ 15
      ∧ s.pc.toNat % 0x1000 = s.indexed (15 : Reg).val % 0x1000 :=
  ⟨idx 0x11F1 [], _, by decide, rfl, by decide, by decide⟩

theorem witness_OnlyStoresChangeMemory :
    ∃ t, (∀ x, Instr.loadRegs 2 ≠ .storeBcd x) ∧ (∀ x, Instr.loadRegs 2 ≠ .storeRegs x) ∧ exec (.loadRegs 2) ready = .next t :=
  ⟨_, by simp, by simp, rfl⟩

theorem witness_OnlyFourOperationsReachMemory :
    (∀ x y n, Instr.clear ≠ .draw x y n) ∧ (∀ x, Instr.clear ≠ .storeBcd x) ∧ (∀ x, Instr.clear ≠ .storeRegs x)
      ∧ (∀ x, Instr.clear ≠ .loadRegs x) := by simp

theorem witness_OnlyNamedRegistersAreWritten : ∃ t, exec (.add 1 2) ready = .next t ∧ (3 : Reg) ∉ regsWritten (.add 1 2) :=
  ⟨_, rfl, by decide⟩

theorem witness_StackDisplayAndIndexHaveTheirOwnWriters :
    ∃ t, exec (.add 1 2) ready = .next t ∧ Instr.add 1 2 ≠ .ret ∧ (∀ a, Instr.add 1 2 ≠ .call a) ∧ Instr.add 1 2 ≠ .clear
      ∧ (∀ x y n, Instr.add 1 2 ≠ .draw x y n) ∧ (∀ a, Instr.add 1 2 ≠ .loadIndex a) ∧ (∀ x, Instr.add 1 2 ≠ .addIndex x)
      ∧ (∀ x, Instr.add 1 2 ≠ .spriteAddr x) :=
  ⟨_, rfl, by simp, by simp, by simp, by simp, by simp, by simp, by simp⟩

theorem witness_PcModeAndInputsHaveTheirOwnWriters :
    ∃ t, exec (.add 1 2) ready = .next t ∧ mayWritePc (.add 1 2) = false ∧ (∀ x, Instr.add 1 2 ≠ .waitForKey x)
      ∧ (∀ x nn, Instr.add 1 2 ≠ .random x nn) :=
  ⟨_, rfl, by simp [mayWritePc], by simp, by simp⟩

theorem witness_TimersAreWrittenAndReadByTheirOwnInstructions :
    ∃ t, exec (.add 1 2) ready = .next t ∧ (∀ x, Instr.add 1 2 ≠ .setDelay x) ∧ (∀ x, Instr.add 1 2 ≠ .getDelay x)
      ∧ (∀ x, Instr.add 1 2 ≠ .setSound x) :=
  ⟨_, rfl, by simp, by simp, by simp⟩

theorem witness_DirtyFlagModeAndKeysAreNotReadElsewhere :
    Instr.add 1 2 ≠ .clear ∧ (∀ x y n, Instr.add 1 2 ≠ .draw x y n) ∧ (∀ x, Instr.add 1 2 ≠ .waitForKey x)
      ∧ (∀ x, Instr.add 1 2 ≠ .skipIfKey x) ∧ (∀ x, Instr.add 1 2 ≠ .skipIfNotKey x) := by simp

/-- A collision at the last pixel of the canvas, and a draw without one. -/
theorem witness_DrawXorsTheSpritePixelByPixel :
    collides (lit (sprite [0x80] 0x3F 0x1F) [(31, 63)]) 31 63 1 ∧ ¬ collides (sprite [0x80] 0x3F 0x1F) 31 63 1 := by
  refine ⟨⟨31, 63, by decide⟩, ?_⟩
  rintro ⟨py, px, _, _, _, h⟩
  have hfb : (sprite [0x80] 0x3F 0x1F).fb = State.reset.fb := rfl
  rw [hfb] at h
  exact absurd (pixelAt_blank py px) (by rw [← Bool.not_eq_false] at h; exact h)

theorem witness_DrawTwiceRestoresTheFramebuffer :
    ∃ t u : State, exec (.draw 1 2 1) (sprite [0xF0] 0x43 0x21) = .next t ∧ exec (.draw 1 2 1) t = .next u
      ∧ (t.reg 1).toNat % 64 = ((sprite [0xF0] 0x43 0x21).reg 1).toNat % 64
      ∧ (t.reg 2).toNat % 32 = ((sprite [0xF0] 0x43 0x21).reg 2).toNat % 32 :=
  ⟨_, _, rfl, rfl, rfl, rfl⟩

theorem witness_DisplayGetsTheWholeFrameWhenDirty :
    { ready with frameDirty := true }.frameDirty = true ∧ ready.frameDirty = false := ⟨rfl, rfl⟩

theorem witness_ReturnPopsTheNewestEntryIntoPc :
    ready.sp.val = 0 ∧ 0 < twoCalls.sp.val ∧ twoCalls.stack[twoCalls.sp.val - 1]? = some 0x456
      ∧ 0 < fullStack.sp.val ∧ fullStack.stack[fullStack.sp.val - 1]? = some 0x0000 := by decide

theorem witness_CallPushesPcAndJumps :
    fullStack.sp.val = 16 ∧ ready.sp.val < 16 ∧ { ready with sp := 15 }.sp.val < 16 := by decide

theorem witness_ReturnAfterCallComesBack :
    ∃ t u : State, ready.pc.toNat < 0x1000 ∧ ready.sp.val < 16 ∧ exec (.call 0x300) ready = .next t ∧ sameStack t u
      ∧ { ready with sp := 15, pc := 0x0FFF }.pc.toNat < 0x1000 :=
  ⟨_, _, by decide, by decide, rfl, ⟨rfl, rfl⟩, by decide⟩

theorem witness_SkipsOnAnImmediate : (alu 0x07 0x08).reg 1 = 0x07 ∧ (alu 0x07 0x08).reg 1 ≠ 0x08 := by decide

theorem witness_SkipsOnTwoRegisters :
    (alu 0x07 0x07).reg 1 = (alu 0x07 0x07).reg 2 ∧ (alu 0x07 0x08).reg 1 ≠ (alu 0x07 0x08).reg 2 := by decide

theorem witness_ReservedWordsDoNothingOrAreRefused :
    ready.cfg.reservedPolicy = .nop ∧ refusing.cfg.reservedPolicy = .refuse
      ∧ (∀ r ∈ opcodeTable, r.priority = 0 → r.matchesWord 0xFFFF = false)
      ∧ ∀ r ∈ opcodeTable, r.priority = 0 → r.matchesWord 0x0000 = false := by decide

/-- Every clause of `wroteWithFlag`: a destination other than VF, and VF under both orders. -/
theorem witness_wroteWithFlag :
    (1 : Reg) ≠ regF ∧ (15 : Reg) = regF ∧ ready.cfg.flagOrder = .flagThenResult
      ∧ (resultFirst ready).cfg.flagOrder = .resultThenFlag := by decide

theorem witness_AddThenSubRestoresTheRegister :
    ∃ t u : State, (1 : Reg) ≠ regF ∧ (2 : Reg) ≠ regF ∧ (1 : Reg) ≠ 2 ∧ exec (.add 1 2) (alu 0xC8 0x64) = .next t
      ∧ exec (.sub 1 2) t = .next u :=
  ⟨_, _, by decide, by decide, by decide, rfl, rfl⟩

theorem witness_RandomMasksOneRequestedByte : { ready with randIn := [0xFF] }.randIn = 0xFF :: [] := rfl

theorem witness_StoreBcdWritesThreeDigits :
    Memory.wf (idx 0xFFF [(1, 0xFF)]).mem = true
      ∧ ∀ k, k < 3 → 0x002 % memSize ≠ (idx 0xFFF [(1, 0xFF)]).indexed k % memSize := by decide

theorem witness_StoreRegsWritesTheRegisterBlock :
    Memory.wf (idx 0xFF8 []).mem = true ∧ (15 : Reg) ≤ 15
      ∧ ∀ r : Reg, r ≤ 15 → 0x008 % memSize ≠ (idx 0xFF8 []).indexed r.val % memSize := by decide

theorem witness_LoadRegsReadsTheRegisterBlock : (0 : Reg) ≤ 0 ∧ (0 : Reg) < 1 ∧ (15 : Reg) ≤ 15 := by decide

theorem witness_LoadRegsAfterStoreRegsRestoresThem :
    ∃ t u v : State, Memory.wf (idx 0x400 [(3, 4)]).mem = true ∧ exec (.storeRegs 3) (idx 0x400 [(3, 4)]) = .next t
      ∧ u.i = t.i ∧ (∀ r : Reg, r ≤ 3 → u.memRead ((idx 0x400 [(3, 4)]).indexed r.val) = t.memRead ((idx 0x400 [(3, 4)]).indexed r.val))
      ∧ exec (.loadRegs 3) u = .next v :=
  ⟨_, _, _, by decide, rfl, rfl, fun _ _ => rfl, rfl⟩

/-- Both policies, with a pressed key, a released key, and a value above 0x0F. -/
theorem witness_KeySkipsFollowTheKeyLevel :
    (keyed 0x8000 0x1F).cfg.keyIndexPolicy = .lowNibble
      ∧ true = (keyed 0x8000 0x1F).keysIn.getLsbD (((keyed 0x8000 0x1F).reg 1).toNat % 16)
      ∧ false = (keyed 0x7FFF 0x1F).keysIn.getLsbD (((keyed 0x7FFF 0x1F).reg 1).toNat % 16)
      ∧ (neverAbove (keyed 0x8000 0x0F)).cfg.keyIndexPolicy = .neverPressed
      ∧ ((neverAbove (keyed 0xFFFF 0x10)).reg 1).toNat > 0x0F
      ∧ ¬ ((neverAbove (keyed 0x8000 0x0F)).reg 1).toNat > 0x0F := by decide

theorem witness_KeyPressEndsTheWait :
    { waiting with hostQueue := [.keyPress 15] }.hostQueue = .keyPress 15 :: [] ∧ waiting.mode = .awaitingKey 3
      ∧ ∀ x : Reg, ready.mode ≠ .awaitingKey x := ⟨rfl, rfl, by decide⟩

theorem witness_StepRunsTheDecodedInstruction :
    ready.mode = .running ∧ ticksNext ready [] ∧ ticksNext { ready with hostQueue := [.tick, .reset] } [.reset]
      ∧ decodeBytes [(setBytes ready 0x200 [0x12, 0x34]).memRead 0x200, (setBytes ready 0x200 [0x12, 0x34]).memRead 0x201]
          = .ok (.jump 0x234, [])
      ∧ (∃ t, exec (.jump 0x234) ready.advancePc = .next t) ∧ ∃ r, exec (.sys 0x123) refusing.advancePc = .refused r :=
  ⟨rfl, .inl ⟨rfl, rfl⟩, .inr rfl, rfl, ⟨_, rfl⟩, ⟨_, rfl⟩⟩

theorem witness_TicksOutsideRunningRunNoInstruction :
    ticksNext State.reset [] ∧ State.reset.mode = .idle ∧ ticksNext waiting [] ∧ waiting.mode = .awaitingKey 3
      ∧ waiting.cfg.timersWhileWaiting = .decrement ∧ (holding waiting).cfg.timersWhileWaiting = .hold :=
  ⟨.inl ⟨rfl, rfl⟩, rfl, .inl ⟨rfl, rfl⟩, rfl, rfl, rfl⟩

theorem witness_ResetCommandPutsTheResetValues :
    { ready with hostQueue := [.reset] }.hostQueue = .reset :: [] ∧ State.reset.image = none ∧ ready.image = some [] :=
  ⟨rfl, rfl, rfl⟩

/-- The first image byte, the byte after the image, and a font byte that wraps. -/
theorem witness_ResetMemoryHoldsTheImageAndTheFont :
    ∃ t : State, step { withFont ready with image := some [0x6A], hostQueue := [.reset] } = .next t
      ∧ imageFits (some [0x6A]) = true ∧ ((withFont ready).cfg.fontImage.getD []).length ≤ 0x1000
      ∧ ([0x6A] : List Byte)[0x200 - 0x200]? = some 0x6A ∧ ([0x6A] : List Byte)[0x201 - 0x200]? = none := by
  refine ⟨_, rfl, ?_⟩
  decide

theorem witness_LoadRecordsTheImageAndResets :
    { waiting with hostQueue := [.load []] }.hostQueue = .load [] :: [] := rfl

theorem witness_OtherHostCommandsChangeOneThing :
    { ready with hostQueue := [.frameAck] }.hostQueue = .frameAck :: []
      ∧ { ready with hostQueue := [.loadFailed] }.hostQueue = .loadFailed :: []
      ∧ { ready with hostQueue := [.keys 0x8001] }.hostQueue = .keys 0x8001 :: [] := ⟨rfl, rfl, rfl⟩

theorem witness_WaitIsLeftOnlyByKeyPressResetOrLoad :
    ∃ t : State, waiting.mode = .awaitingKey 3 ∧ step { waiting with hostQueue := [.keyPress 7] } = .next t
      ∧ t.mode ≠ .awaitingKey 3 := ⟨_, rfl, rfl, by decide⟩

/-- The state after reset, with a host's queue. -/
theorem reset_queue_inv (q : List HostCommand) : StateInv { State.reset with hostQueue := q } where
  pc_below := by show (0x0200 : Word).toNat < 0x1000; decide
  mem_wf := rfl
  image_fits := rfl
  idle_iff := ⟨fun _ => rfl, fun _ => rfl⟩

theorem witness_IdleIsLeftOnlyByLoad :
    ∃ t : State, StateInv { State.reset with hostQueue := [.load []] } ∧ State.reset.mode = .idle
      ∧ step { State.reset with hostQueue := [.load []] } = .next t ∧ t.mode ≠ .idle :=
  ⟨_, reset_queue_inv _, rfl, rfl, by decide⟩

theorem witness_PlacedWordIsTheNextInstruction : Memory.wf State.reset.mem = true := by decide

theorem witness_NoStepFaultsOrHalts : State.reset.cfg.reservedPolicy = .nop := rfl

theorem witness_OnlyAReservedWordIsRefused : ∃ r, step (refusing.withFetchWord 16 0xFFFF) = .refused r := ⟨_, rfl⟩

theorem witness_PcAlwaysLiesInMemory : ∃ t : State, ready.pc.toNat < 0x1000 ∧ step ready = .next t := ⟨_, by decide, rfl⟩

theorem witness_EveryStepKeepsTheInvariant :
    ∃ t : State, StateInv { State.reset with hostQueue := [.load [0x12, 0x00]] }
      ∧ step { State.reset with hostQueue := [.load [0x12, 0x00]] } = .next t := ⟨_, reset_queue_inv _, rfl⟩

theorem witness_StepsKeepTheConfiguration : ∃ t : State, step (ready.withFetchWord 16 0x8124) = .next t := ⟨_, rfl⟩

end Sys2Proof.Tests
end

section
/-! PROOFS. 10_state.md: who writes and who reads the timers (R21), and PC within memory (R13). -/

namespace Sys2Proof.Machine

/-! ## What the operations and meanings do under other timer values -/

/-- `s` with the timer values `d` and `e`. -/
def State.withTimers (s : State) (d e : Byte) : State := { s with dt := d, st := e }

theorem State.skipIf_withTimers (s : State) (d e : Byte) (taken : Bool) :
    (s.withTimers d e).skipIf taken = (s.skipIf taken).withTimers d e := by
  cases taken <;> rfl

theorem State.writeResultAndFlag_withTimers (s : State) (d e : Byte) (x : Reg) (r : Byte) (f : Bool) :
    (s.withTimers d e).writeResultAndFlag x r f = (s.writeResultAndFlag x r f).withTimers d e := by
  simp only [State.writeResultAndFlag, State.withTimers]; split <;> rfl

theorem State.push_withTimers (s : State) (d e : Byte) (w : Word) :
    (s.withTimers d e).push w = (s.push w).withTimers d e := by
  unfold State.push
  by_cases h : s.sp.val < 16
  · have h' : (s.withTimers d e).sp.val < 16 := h
    rw [dif_pos h, dif_pos h']
    rfl
  · have h' : ¬ (s.withTimers d e).sp.val < 16 := h
    rw [dif_neg h, dif_neg h']

theorem State.storeBlock_withTimers (s : State) (d e : Byte) (n : Nat) :
    (s.withTimers d e).storeBlock n = (s.storeBlock n).withTimers d e := by
  induction n with
  | zero => rfl
  | succ k ih => rw [State.storeBlock, ih]; rfl

theorem State.loadBlock_withTimers (s : State) (d e : Byte) (n : Nat) :
    (s.withTimers d e).loadBlock n = (s.loadBlock n).withTimers d e := by
  induction n with
  | zero => rfl
  | succ k ih => rw [State.loadBlock, ih]; rfl

theorem blitSprite_withTimers (s : State) (d e : Byte) (y0 x0 n : Nat) :
    blitSprite (s.withTimers d e) y0 x0 n = blitSprite s y0 x0 n := by
  induction n with
  | zero => rfl
  | succ r ih => rw [blitSprite, ih]; rfl

theorem execRet_withTimers (s : State) (d e : Byte) :
    execRet (s.withTimers d e) = mapNext (·.withTimers d e) (execRet s) := by
  have htop : (s.withTimers d e).top = s.top := rfl
  unfold execRet
  rw [htop]
  cases s.top <;> rfl

theorem execCall_withTimers (nnn : Addr) (s : State) (d e : Byte) :
    execCall nnn (s.withTimers d e) = mapNext (·.withTimers d e) (execCall nnn s) := by
  have hsp : (s.withTimers d e).sp = s.sp := rfl
  unfold execCall
  rw [hsp, State.push_withTimers]
  split <;> rfl

theorem execDraw_withTimers (x y : Reg) (n : Nibble) (s : State) (d e : Byte) :
    execDraw x y n (s.withTimers d e) = mapNext (·.withTimers d e) (execDraw x y n s) := by
  unfold execDraw
  rw [blitSprite_withTimers]
  rfl

theorem reservedWord_withTimers (w : Word) (s : State) (d e : Byte) :
    reservedWord w (s.withTimers d e) = mapNext (·.withTimers d e) (reservedWord w s) := by
  have hcfg : (s.withTimers d e).cfg = s.cfg := rfl
  unfold reservedWord
  rw [hcfg]
  cases s.cfg.reservedPolicy <;> rfl

/-- All but the three timer instructions do the same under any timer values, and leave those values. -/
theorem exec_withTimers {i : Instr} (hset : ∀ x, i ≠ .setDelay x) (hget : ∀ x, i ≠ .getDelay x)
    (hsound : ∀ x, i ≠ .setSound x) (s : State) (d e : Byte) :
    exec i (s.withTimers d e) = mapNext (·.withTimers d e) (exec i s) := by
  cases i with
  | setDelay x => exact absurd rfl (hset x)
  | getDelay x => exact absurd rfl (hget x)
  | setSound x => exact absurd rfl (hsound x)
  | ret => exact execRet_withTimers s d e
  | call nnn => exact execCall_withTimers nnn s d e
  | draw x y n => exact execDraw_withTimers x y n s d e
  | sys | reserved => exact reservedWord_withTimers _ s d e
  | skipIfEq | skipIfNeq | skipIfRegEq | skipIfRegNeq | skipIfKey | skipIfNotKey =>
    exact congrArg Host.Outcome.next (s.skipIf_withTimers d e _)
  | add | sub | shr | subn | shl => exact congrArg Host.Outcome.next (s.writeResultAndFlag_withTimers d e _ _ _)
  | storeRegs x => exact congrArg Host.Outcome.next (s.storeBlock_withTimers d e _)
  | loadRegs x => exact congrArg Host.Outcome.next (s.loadBlock_withTimers d e _)
  | _ => rfl

/-! ## The timers' own writers and readers (R21) -/

/-- DT is kept by all but `set-delay`, ST by all but `set-sound`. -/
theorem exec_keeps_timers {i : Instr} {s t : State} (h : exec i s = .next t) :
    ((∀ x, i ≠ .setDelay x) → t.dt = s.dt) ∧ ((∀ x, i ≠ .setSound x) → t.st = s.st) := by
  cases i with
  | ret => rcases execRet_next h with rfl | ⟨a, rfl⟩ <;> simp
  | call nnn => rcases execCall_next h with rfl | rfl <;> simp
  | sys nnn => simp [reservedWord_next h]
  | reserved w => simp [reservedWord_next h]
  | setDelay x => cases h; exact ⟨fun hset => absurd rfl (hset x), fun _ => rfl⟩
  | setSound x => cases h; exact ⟨fun _ => rfl, fun hset => absurd rfl (hset x)⟩
  | _ => cases h; simp

theorem mapNext_congr {f g : State → State} {o : Host.Outcome State Fault Refusal}
    (h : ∀ t, o = .next t → f t = g t) : mapNext f o = mapNext g o := by
  cases o with
  | next t => exact congrArg Host.Outcome.next (h t rfl)
  | fault r => rfl
  | refused r => rfl

/-- DT is read by `get-delay` alone. -/
theorem exec_withDt {i : Instr} (hset : ∀ x, i ≠ .setDelay x) (hget : ∀ x, i ≠ .getDelay x) (s : State) (b : Byte) :
    exec i { s with dt := b } = mapNext (fun t => { t with dt := b }) (exec i s) := by
  by_cases hsound : ∃ x, i = .setSound x
  · obtain ⟨x, rfl⟩ := hsound
    rfl
  · have hsound : ∀ x, i ≠ .setSound x := not_exists.1 hsound
    refine (exec_withTimers hset hget hsound s b s.st).trans (mapNext_congr fun t ht => ?_)
    rw [State.withTimers, ← (exec_keeps_timers ht).2 hsound]

/-- ST is read by no instruction. -/
theorem exec_withSt {i : Instr} (hsound : ∀ x, i ≠ .setSound x) (s : State) (b : Byte) :
    exec i { s with st := b } = mapNext (fun t => { t with st := b }) (exec i s) := by
  by_cases hdelay : ∃ x, i = .setDelay x ∨ i = .getDelay x
  · obtain ⟨x, rfl | rfl⟩ := hdelay <;> rfl
  · have hset : ∀ x, i ≠ .setDelay x := fun x hi => hdelay ⟨x, .inl hi⟩
    have hget : ∀ x, i ≠ .getDelay x := fun x hi => hdelay ⟨x, .inr hi⟩
    refine (exec_withTimers hset hget hsound s s.dt b).trans (mapNext_congr fun t ht => ?_)
    rw [State.withTimers, ← (exec_keeps_timers ht).1 hset]

/-- Settles O14: the writers by cases on the instruction, the readers by running each under other timer values. -/
theorem timersAreWrittenAndReadByTheirOwnInstructions :
    Obligations.TimersAreWrittenAndReadByTheirOwnInstructions := by
  refine ⟨fun i s t h => exec_keeps_timers h, fun x s => ⟨_, rfl, rfl⟩, fun x s => ⟨_, rfl, rfl⟩,
    fun x s => ⟨_, rfl, s.reg_setReg_same x s.dt⟩, fun i s b hset hget => exec_withDt hset hget s b,
    fun i s b hsound => exec_withSt hsound s b, fun x s b => rfl, fun x s b => rfl, fun s => ?_, rfl, rfl⟩
  exact ⟨countDown_toNat s.dt, countDown_toNat s.st⟩

/-! ## PC within memory (R13) -/

theorem tick_keeps_pc_below {s t : State} (hp : s.pc.toNat < memSize) (h : tick s = .next t) : t.pc.toNat < memSize := by
  cases hm : s.mode with
  | idle =>
    rw [tick_idle hm] at h
    cases h
    exact hp
  | awaitingKey x =>
    rw [tick_awaiting hm] at h
    cases h
    rcases tickAwaiting_cases s with hs | hs <;> rw [hs] <;> exact hp
  | running =>
    rw [tick_running hm] at h
    obtain ⟨u, hu, rfl⟩ := finishTick_next h
    exact exec_pc_below (t := u) s.advancePc_below hu

theorem keyPress_pc (k : Key) (s : State) : (keyPress k s).pc = s.pc := by
  rcases keyPress_cases k s with hk | ⟨x, -, hk⟩
  · rw [hk]
  · rw [hk]; rfl

theorem State.resetOp_pc_below (s : State) : s.resetOp.pc.toNat < memSize := by
  show (BitVec.ofNat 16 programBase).toNat < memSize
  decide

theorem hostCommand_keeps_pc_below {c : HostCommand} {s t : State} (hp : s.pc.toNat < memSize)
    (h : hostCommand c s = .next t) : t.pc.toNat < memSize := by
  cases c with
  | tick => exact tick_keeps_pc_below hp h
  | load image => cases h; exact State.resetOp_pc_below _
  | reset => cases h; exact State.resetOp_pc_below s
  | keyPress k => cases h; exact (keyPress_pc k s).symm ▸ hp
  | loadFailed | frameAck | keys => cases h; exact hp

theorem step_keeps_pc_below {s t : State} (hp : s.pc.toNat < memSize) (h : step s = .next t) : t.pc.toNat < memSize := by
  rcases step_cases s with ⟨q, -, hs⟩ | ⟨c, q, -, -, hs⟩ <;> rw [hs] at h
  · exact tick_keeps_pc_below (s := { s with hostQueue := q }) hp h
  · exact hostCommand_keeps_pc_below (s := { s with hostQueue := q }) hp h

/-- Settles O55: a step is a tick or a host command, and each keeps PC or writes it modulo 4096. -/
theorem pcAlwaysLiesInMemory : Obligations.PcAlwaysLiesInMemory :=
  ⟨State.setPc_toNat, fun _ _ => step_keeps_pc_below, by decide⟩

end Sys2Proof.Machine
end

section
/-! PROOFS. 30_encoding.md: the six fields of a word as numbers (R45). -/

namespace Sys2Proof

/-- The bits of a field, `w[start + len - 1 : start]`, as division and remainder by powers of two. -/
theorem extractLsb'_toNat_div_mod (w : Word) (start len : Nat) :
    (w.extractLsb' start len).toNat = w.toNat / 2 ^ start % 2 ^ len := by
  rw [BitVec.extractLsb'_toNat, Nat.shiftRight_eq_div_pow]

theorem extractLsb'_zero_toNat (w : Word) (len : Nat) : (w.extractLsb' 0 len).toNat = w.toNat % 2 ^ len := by
  rw [extractLsb'_toNat_div_mod, Nat.pow_zero, Nat.div_one]

/-- The top nibble needs no remainder: a word is below `2 ^ 16`. -/
theorem fieldOp_toNat (w : Word) : (fieldOp w).toNat = w.toNat / 0x1000 := by
  have hlt : w.toNat / 0x1000 < 0x10 := Nat.div_lt_of_lt_mul w.isLt
  exact (extractLsb'_toNat_div_mod w 12 4).trans (Nat.mod_eq_of_lt hlt)

theorem fieldNNN_toNat (w : Word) : (fieldNNN w).toNat = w.toNat % 0x1000 := extractLsb'_zero_toNat w 12

theorem fieldNN_toNat (w : Word) : (fieldNN w).toNat = w.toNat % 0x100 := extractLsb'_zero_toNat w 8

theorem fieldN_toNat (w : Word) : (fieldN w).toNat = w.toNat % 0x10 := extractLsb'_zero_toNat w 4

theorem fieldX_val (w : Word) : (fieldX w).val = w.toNat / 0x100 % 0x10 := extractLsb'_toNat_div_mod w 8 4

theorem fieldY_val (w : Word) : (fieldY w).val = w.toNat / 0x10 % 0x10 := extractLsb'_toNat_div_mod w 4 4

/-- Settles O4: one equation a field, each the division and remainder at the field's own start and width. -/
theorem operandFieldsAreTheBitsOfTheWord : Obligations.OperandFieldsAreTheBitsOfTheWord := fun w =>
  ⟨fieldOp_toNat w, fieldNNN_toNat w, fieldNN_toNat w, fieldN_toNat w, fieldX_val w, fieldY_val w⟩

end Sys2Proof
end

section
/-! PROOFS. 40_display.md: what `clear` leaves of the framebuffer (R55) and the order of the display's frame (R62). -/

namespace Sys2Proof.Machine

/-! ## The frame the display receives (R62) -/

/-- The frame is the framebuffer's rows of 64 joined into one vector of 2048. -/
theorem fbOut_eq_flatten (s : State) : fbOut s = s.fb.flatten.toList := by
  show _ = (s.fb.toArray.map Vector.toArray).flatten.toList
  rw [Array.toList_flatten, Array.toList_map, List.map_map]
  rfl

theorem fbOut_length (s : State) : (fbOut s).length = 2048 := by
  rw [fbOut_eq_flatten, Vector.length_toList]

/-- Row-major: place `y * 64 + x` lies in row `y`, for `x < 64`, at column `x`. -/
theorem fbOut_getElem? (s : State) {y x : Nat} (hy : y < 32) (hx : x < 64) :
    (fbOut s)[y * 64 + x]? = some (pixelAt s.fb y x) := by
  have hrow : (y * 64 + x) / 64 = y := by omega
  have hcol : (y * 64 + x) % 64 = x := by omega
  have hplace : y * 64 + x < 32 * 64 := by omega
  rw [fbOut_eq_flatten, Vector.getElem?_toList, Vector.getElem?_eq_getElem hplace, Vector.getElem_flatten hplace,
    pixelAt_on hy hx]
  simp only [hrow, hcol]

theorem displayFrame_dirty {s : State} (h : s.frameDirty = true) : displayFrame s = some (fbOut s) := if_pos h

theorem displayFrame_clean {s : State} (h : s.frameDirty = false) : displayFrame s = none :=
  if_neg (Bool.eq_false_iff.1 h)

/-- Settles O19: the frame is the flattened framebuffer, whose place is found by division by the row length. -/
theorem displayGetsTheWholeFrameWhenDirty : Obligations.DisplayGetsTheWholeFrameWhenDirty := fun s =>
  ⟨fbOut_length s, fun _ _ => fbOut_getElem? s, displayFrame_dirty, displayFrame_clean⟩

/-! ## `clear` (R55) -/

/-- Settles O16: `clear` puts a blank framebuffer and `frame_dirty`, and every other field stays as it is. -/
theorem clearUnlightsEveryPixel : Obligations.ClearUnlightsEveryPixel := by
  refine ⟨by decide, fun s => ⟨_, rfl, fun y x _ _ => pixelAt_blank y x, rfl, ?_⟩⟩
  exact ⟨fun _ _ => rfl, ⟨rfl, rfl, rfl⟩, fun _ => rfl, ⟨rfl, rfl⟩, ⟨rfl, rfl⟩, ⟨rfl, rfl⟩, rfl, rfl, rfl, rfl⟩

end Sys2Proof.Machine
end

section
/-! PROOFS. 41_control_flow.md: `return` and `call` (R65, R66), the jumps (R67, R68) and the skips on an immediate
(R69, R70). -/

namespace Sys2Proof.Machine

/-! ## The words of the control-flow instructions -/

theorem decode_encodeA_jump (nnn : Addr) : decode (encodeA 0x1 nnn) = .jump nnn := by
  rw [decode_family1 (fieldOp_encodeA ..), fieldNNN_encodeA]

theorem decode_encodeA_call (nnn : Addr) : decode (encodeA 0x2 nnn) = .call nnn := by
  rw [decode_family2 (fieldOp_encodeA ..), fieldNNN_encodeA]

theorem decode_encodeA_jumpOffset (nnn : Addr) : decode (encodeA 0xB nnn) = .jumpOffset nnn := by
  rw [decode_familyB (fieldOp_encodeA ..), fieldNNN_encodeA]

theorem decode_encodeXNN_skipIfEq (x : Reg) (nn : Byte) : decode (encodeXNN 0x3 x nn) = .skipIfEq x nn := by
  rw [decode_family3 (fieldOp_encodeXNN ..), fieldX_encodeXNN, fieldNN_encodeXNN]

theorem decode_encodeXNN_skipIfNeq (x : Reg) (nn : Byte) : decode (encodeXNN 0x4 x nn) = .skipIfNeq x nn := by
  rw [decode_family4 (fieldOp_encodeXNN ..), fieldX_encodeXNN, fieldNN_encodeXNN]

/-! ## What `return` and `call` leave alone -/

/-- Everything but PC and the call stack is the same. -/
def sameButPcAndStack (s t : State) : Prop :=
  sameRegsBut [] s t ∧ t.i = s.i ∧ t.mode = s.mode ∧ sameMemory s t ∧ sameDisplay s t ∧ sameTimers s t
    ∧ sameRandom s t ∧ sameOutside s t

theorem sameButPcAndStack_refl (s : State) : sameButPcAndStack s s :=
  ⟨fun _ _ => rfl, rfl, rfl, fun _ => rfl, ⟨rfl, rfl⟩, ⟨rfl, rfl⟩, ⟨rfl, rfl⟩, rfl, rfl, rfl, rfl⟩

theorem sameButPcAndStack_setPc {s t : State} (h : sameButPcAndStack s t) (a : Nat) :
    sameButPcAndStack s (t.setPc a) := h

theorem sameButPcAndStack_drop (s : State) : sameButPcAndStack s s.drop := sameButPcAndStack_refl s

theorem sameButPcAndStack_push (s : State) (w : Word) : sameButPcAndStack s (s.push w) := by
  unfold State.push
  split <;> exact sameButPcAndStack_refl s

/-! ## `return` (R65) -/

theorem State.top_of_newest {s : State} {w : Word} (h : 0 < s.sp.val) (hw : s.stack[s.sp.val - 1]? = some w) :
    s.top = some w := by
  have hk : s.sp.val - 1 < 16 := by omega
  rw [Vector.getElem?_eq_getElem hk] at hw
  rw [State.top, dif_neg (Nat.ne_of_gt h), hw]

theorem exec_ret_of_top_none {s : State} (h : s.top = none) : exec .ret s = .next s := by
  simp only [exec, execRet, h]

theorem exec_ret_of_top_some {s : State} {w : Word} (h : s.top = some w) :
    exec .ret s = .next (s.drop.setPc w.toNat) := by
  simp only [exec, execRet, h]

/-- Settles O20: by cases on whether the stack has a top, which `return` drops and puts into PC. -/
theorem returnPopsTheNewestEntryIntoPc : Obligations.ReturnPopsTheNewestEntryIntoPc := by
  refine ⟨by decide, fun s hempty => exec_ret_of_top_none (State.top_empty hempty), fun s w hsp hw => ?_⟩
  have hdepth : s.drop.sp.val + 1 = s.sp.val := Nat.sub_add_cancel hsp
  exact ⟨_, exec_ret_of_top_some (State.top_of_newest hsp hw), State.setPc_toNat _ _, hdepth, fun _ _ => rfl,
    sameButPcAndStack_setPc (sameButPcAndStack_drop s) _⟩

/-! ## `call` (R66) -/

theorem addr_mod_memSize (nnn : Addr) : nnn.toNat % memSize = nnn.toNat := Nat.mod_eq_of_lt nnn.isLt

theorem exec_call_full {s : State} (h : s.sp.val = 16) (nnn : Addr) : exec (.call nnn) s = .next s := if_pos h

theorem exec_call_room {s : State} (h : s.sp.val < 16) (nnn : Addr) :
    exec (.call nnn) s = .next ((s.push s.pc).setPc nnn.toNat) := if_neg (Nat.ne_of_lt h)

/-- Settles O21: by cases on whether the stack has room, where `call` is a push and a jump. -/
theorem callPushesPcAndJumps : Obligations.CallPushesPcAndJumps := by
  refine fun nnn s => ⟨decode_encodeA_call nnn, fun hfull => exec_call_full hfull nnn, fun hroom => ?_⟩
  obtain ⟨hsp, hstack⟩ := State.push_room hroom s.pc
  refine ⟨_, exec_call_room hroom nnn, ?_, hsp, ?_, fun k hk => ?_,
    sameButPcAndStack_setPc (sameButPcAndStack_push s s.pc) _⟩
  · rw [State.setPc_toNat, addr_mod_memSize]
  · rw [State.setPc_stack, hstack, Vector.getElem?_set_self hroom]
  · rw [State.setPc_stack, hstack, Vector.getElem?_set_ne hroom hk.symm]

/-! ## The jumps (R67, R68) -/

theorem State.setPc_addr (s : State) (nnn : Addr) : s.setPc nnn.toNat = { s with pc := nnn.setWidth 16 } := by
  rw [State.setPc, addr_mod_memSize, BitVec.ofNat_toNat]

/-- Settles O23: a 12-bit address is put into PC as it is, and the sum with V0 modulo 4096. -/
theorem jumpsSetPc : Obligations.JumpsSetPc := fun nnn s =>
  ⟨decode_encodeA_jump nnn, decode_encodeA_jumpOffset nnn, congrArg Host.Outcome.next (s.setPc_addr nnn), rfl⟩

/-! ## The skips on an immediate (R69, R70) -/

theorem State.skipIf_of_true (s : State) {taken : Bool} (h : taken = true) :
    s.skipIf taken = { s with pc := BitVec.ofNat 16 ((s.pc.toNat + 2) % 0x1000) } := if_pos h

theorem State.skipIf_of_false (s : State) {taken : Bool} (h : taken = false) : s.skipIf taken = s := by
  rw [h]; rfl

/-- Settles O24: by cases on the comparison, which one skip takes as it is and the other negated. -/
theorem skipsOnAnImmediate : Obligations.SkipsOnAnImmediate := by
  refine fun x nn s => ⟨decode_encodeXNN_skipIfEq x nn, decode_encodeXNN_skipIfNeq x nn, fun heq => ⟨?_, ?_⟩,
    fun hne => ⟨?_, ?_⟩⟩
  · exact congrArg Host.Outcome.next (s.skipIf_of_true (beq_iff_eq.2 heq))
  · exact congrArg Host.Outcome.next (s.skipIf_of_false (bne_eq_false_iff_eq.2 heq))
  · exact congrArg Host.Outcome.next (s.skipIf_of_false (beq_eq_false_iff_ne.2 hne))
  · exact congrArg Host.Outcome.next (s.skipIf_of_true (bne_iff_ne.2 hne))

end Sys2Proof.Machine
end

section
/-! PROOFS. 42_alu.md: the operations with an immediate, `load-imm` and `add-imm` (R78, R79). -/

namespace Sys2Proof.Machine

/-! ## The words of the immediate operations -/

theorem decode_encodeXNN_loadImm (x : Reg) (nn : Byte) : decode (encodeXNN 0x6 x nn) = .loadImm x nn := by
  rw [decode_family6 (fieldOp_encodeXNN ..), fieldX_encodeXNN, fieldNN_encodeXNN]

theorem decode_encodeXNN_addImm (x : Reg) (nn : Byte) : decode (encodeXNN 0x7 x nn) = .addImm x nn := by
  rw [decode_family7 (fieldOp_encodeXNN ..), fieldX_encodeXNN, fieldNN_encodeXNN]

/-! ## What they write -/

theorem exec_loadImm (x : Reg) (nn : Byte) (s : State) : exec (.loadImm x nn) s = .next (s.setReg x nn) := rfl

theorem exec_addImm (x : Reg) (nn : Byte) (s : State) :
    exec (.addImm x nn) s = .next (s.setReg x (s.reg x + nn)) := rfl

/-- The sum of two bytes is their exact sum modulo 256. -/
theorem byte_add_eq_ofNat_mod (a b : Byte) : a + b = BitVec.ofNat 8 ((a.toNat + b.toNat) % 256) := by
  apply BitVec.eq_of_toNat_eq
  rw [BitVec.toNat_add, BitVec.toNat_ofNat, Nat.mod_mod]

/-- Settles O27: each operation is one register write, of `nn` or of the byte sum, which is the sum modulo 256. -/
theorem immediateOperationsWriteTheirRegister : Obligations.ImmediateOperationsWriteTheirRegister := by
  refine fun x nn s => ⟨decode_encodeXNN_loadImm x nn, decode_encodeXNN_addImm x nn,
    ⟨_, exec_loadImm x nn s, wrote_setReg s x nn⟩, ⟨_, exec_addImm x nn s, ?_⟩⟩
  rw [← byte_add_eq_ofNat_mod]
  exact wrote_setReg s x (s.reg x + nn)

end Sys2Proof.Machine
end

section
/-! PROOFS. 43_index_memory.md: `load-index` (R90) and `store-bcd` (R93). -/

namespace Sys2Proof.Machine

/-! ## The words of `load-index` and `store-bcd` -/

theorem decode_encodeA_loadIndex (nnn : Addr) : decode (encodeA 0xA nnn) = .loadIndex nnn := by
  rw [decode_familyA (fieldOp_encodeA ..), fieldNNN_encodeA]

theorem decode_encodeXNN_storeBcd (x : Reg) : decode (encodeXNN 0xF x 0x33) = .storeBcd x := by
  rw [decode_familyF (fieldOp_encodeXNN ..), decodeFamilyF, fieldX_encodeXNN, fieldNN_encodeXNN]
  rfl

/-! ## `load-index` (R90) -/

theorem exec_loadIndex (nnn : Addr) (s : State) :
    exec (.loadIndex nnn) s = .next { s with i := BitVec.ofNat 16 nnn.toNat } := by
  rw [BitVec.ofNat_toNat]
  rfl

/-- Settles O34: the 12-bit address fits in I as it is, and I is the one field written. -/
theorem loadIndexPutsTheAddressInI : Obligations.LoadIndexPutsTheAddressInI := fun nnn s =>
  ⟨decode_encodeA_loadIndex nnn, exec_loadIndex nnn s⟩

/-! ## `store-bcd` (R93) -/

/-- The decimal digits of a byte written at `I`, `I + 1` and `I + 2`, hundreds first. -/
def State.writeDigits (s : State) (b : Byte) : State :=
  ((s.memWrite (s.indexed 0) (BitVec.ofNat 8 (b.toNat / 100))).memWrite
    (s.indexed 1) (BitVec.ofNat 8 (b.toNat / 10 % 10))).memWrite (s.indexed 2) (BitVec.ofNat 8 (b.toNat % 10))

theorem exec_storeBcd (x : Reg) (s : State) : exec (.storeBcd x) s = .next (s.writeDigits (s.reg x)) := rfl

/-- The write at `I` is read back past the two later ones, which are to other addresses. -/
theorem State.memRead_writeDigits_hundreds {s : State} (hm : Memory.wf s.mem = true) (b : Byte) :
    (s.writeDigits b).memRead (s.indexed 0) = BitVec.ofNat 8 (b.toNat / 100) := by
  rw [State.writeDigits, State.memRead_memWrite_other _ _ (s.indexed_ne (by decide) (by decide) (by decide)),
    State.memRead_memWrite_other _ _ (s.indexed_ne (by decide) (by decide) (by decide)),
    State.memRead_memWrite_same hm _ rfl]

theorem State.memRead_writeDigits_tens {s : State} (hm : Memory.wf s.mem = true) (b : Byte) :
    (s.writeDigits b).memRead (s.indexed 1) = BitVec.ofNat 8 (b.toNat / 10 % 10) := by
  rw [State.writeDigits, State.memRead_memWrite_other _ _ (s.indexed_ne (by decide) (by decide) (by decide)),
    State.memRead_memWrite_same (State.memWrite_wf hm _ _) _ rfl]

theorem State.memRead_writeDigits_ones {s : State} (hm : Memory.wf s.mem = true) (b : Byte) :
    (s.writeDigits b).memRead (s.indexed 2) = BitVec.ofNat 8 (b.toNat % 10) :=
  State.memRead_memWrite_same (State.memWrite_wf (State.memWrite_wf hm _ _) _ _) _ rfl

theorem State.memRead_writeDigits_other (s : State) (b : Byte) {a : Nat}
    (h : ∀ k, k < 3 → a % memSize ≠ s.indexed k % memSize) : (s.writeDigits b).memRead a = s.memRead a := by
  rw [State.writeDigits, State.memRead_memWrite_other _ _ (h 2 (by decide)),
    State.memRead_memWrite_other _ _ (h 1 (by decide)), State.memRead_memWrite_other _ _ (h 0 (by decide))]

/-- A number below 256 is the number its byte holds. -/
theorem byte_ofNat_toNat {n : Nat} (h : n < 256) : (BitVec.ofNat 8 n).toNat = n := Nat.mod_eq_of_lt h

/-- Settles O36: three writes to three different addresses, of digits that each fit in a byte. -/
theorem storeBcdWritesThreeDigits : Obligations.StoreBcdWritesThreeDigits := by
  refine fun x s => ⟨decode_encodeXNN_storeBcd x, fun hm => ⟨_, exec_storeBcd x s, ?_, ?_, ?_, ?_, ?_⟩⟩
  · have hundreds : (s.reg x).toNat / 100 < 256 := by have := (s.reg x).isLt; omega
    rw [State.memRead_writeDigits_hundreds hm, byte_ofNat_toNat hundreds]
  · have tens : (s.reg x).toNat / 10 % 10 < 256 := by omega
    rw [State.memRead_writeDigits_tens hm, byte_ofNat_toNat tens]
  · have ones : (s.reg x).toNat % 10 < 256 := by omega
    rw [State.memRead_writeDigits_ones hm, byte_ofNat_toNat ones]
  · exact fun a => State.memRead_writeDigits_other s (s.reg x)
  · exact ⟨fun _ _ => rfl, ⟨rfl, rfl, rfl⟩, ⟨rfl, rfl⟩, ⟨rfl, rfl⟩, ⟨rfl, rfl⟩, ⟨rfl, rfl⟩, rfl, rfl, rfl, rfl⟩

end Sys2Proof.Machine
end

section
/-! PROOFS. 44_timers_keys.md: `get-delay`, `set-delay` and `set-sound`, and the timer step of their tick (R101 to R103). -/

namespace Sys2Proof.Machine

/-! ## The words of the timer instructions -/

theorem decode_encodeXNN_getDelay (x : Reg) : decode (encodeXNN 0xF x 0x07) = .getDelay x := by
  rw [decode_familyF (fieldOp_encodeXNN ..), decodeFamilyF, fieldX_encodeXNN, fieldNN_encodeXNN]
  rfl

theorem decode_encodeXNN_setDelay (x : Reg) : decode (encodeXNN 0xF x 0x15) = .setDelay x := by
  rw [decode_familyF (fieldOp_encodeXNN ..), decodeFamilyF, fieldX_encodeXNN, fieldNN_encodeXNN]
  rfl

theorem decode_encodeXNN_setSound (x : Reg) : decode (encodeXNN 0xF x 0x18) = .setSound x := by
  rw [decode_familyF (fieldOp_encodeXNN ..), decodeFamilyF, fieldX_encodeXNN, fieldNN_encodeXNN]
  rfl

/-! ## Their execute phase -/

theorem exec_getDelay (x : Reg) (s : State) : exec (.getDelay x) s = .next (s.setReg x s.dt) := rfl

theorem exec_setDelay (x : Reg) (s : State) : exec (.setDelay x) s = .next { s with dt := s.reg x } := rfl

theorem exec_setSound (x : Reg) (s : State) : exec (.setSound x) s = .next { s with st := s.reg x } := rfl

/-! ## The timer step that ends their tick -/

/-- An execute phase that answers next ends its tick with the timer step. -/
theorem finishTick_of_next {o : Host.Outcome State Fault Refusal} {t : State} (h : o = .next t) :
    finishTick o = .next t.timerStep := by
  rw [h]; rfl

@[simp] theorem State.reg_timerStep (s : State) (r : Reg) : s.timerStep.reg r = s.reg r :=
  State.reg_eq_of_v s.timerStep_v r

/-- Settles O43: each instruction is one write, of a register or of a timer, and the timer step then takes one off the
timers and leaves the registers as they are. -/
theorem timerInstructionsAndTheirTick : Obligations.TimerInstructionsAndTheirTick := by
  refine fun x s => ⟨decode_encodeXNN_getDelay x, decode_encodeXNN_setDelay x, decode_encodeXNN_setSound x,
    ⟨_, exec_getDelay x s, wrote_setReg s x s.dt⟩, ⟨_, finishTick_of_next (exec_getDelay x s), ?_, ?_⟩,
    exec_setDelay x s, ⟨_, finishTick_of_next (exec_setDelay x s), ?_⟩,
    exec_setSound x s, ⟨_, finishTick_of_next (exec_setSound x s), ?_⟩⟩
  · rw [State.reg_timerStep, State.reg_setReg_same]
  · rw [State.timerStep_dt, State.setReg_dt, countDown_toNat]
  · exact countDown_toNat (s.reg x)
  · exact countDown_toNat (s.reg x)

end Sys2Proof.Machine
end

section
/-! PROOFS. 60_exceptions.md: no step faults or halts (R104). -/

namespace Sys2Proof.Machine

/-- There is no fault, so an outcome that is not a refusal answers a next state. -/
theorem outcome_next_of_not_refused {o : Host.Outcome State Fault Refusal} (h : ∀ r, o ≠ .refused r) :
    ∃ t, o = .next t := by
  cases o with
  | next t => exact ⟨t, rfl⟩
  | fault r => cases r
  | refused r => exact absurd rfl (h r)

/-- Where reserved words are no-ops every instruction answers, for only the other policy refuses one. -/
theorem exec_answers_of_nop (i : Instr) {s : State} (hpol : s.cfg.reservedPolicy = .nop) :
    ∃ t, exec i s = .next t := by
  refine outcome_next_of_not_refused fun r hr => ?_
  have hrefuse : s.cfg.reservedPolicy = .refuse := (exec_refused hr).1
  rw [hpol] at hrefuse
  cases hrefuse

theorem tick_answers_of_nop {s : State} (hpol : s.cfg.reservedPolicy = .nop) : ∃ t, tick s = .next t := by
  cases hm : s.mode with
  | idle => exact ⟨s, tick_idle hm⟩
  | awaitingKey x => exact ⟨tickAwaiting s, tick_awaiting hm⟩
  | running =>
    have hadvanced : s.advancePc.cfg.reservedPolicy = .nop := by rw [State.advancePc_cfg, hpol]
    obtain ⟨u, hu⟩ := exec_answers_of_nop (decode s.fetchWord) hadvanced
    exact ⟨u.timerStep, (tick_running hm).trans (finishTick_of_next hu)⟩

/-- A command other than a tick answers under either policy: it runs no instruction. -/
theorem hostCommand_answers_of_ne_tick {c : HostCommand} (hc : c ≠ .tick) (s : State) :
    ∃ t, hostCommand c s = .next t := by
  cases c with
  | tick => exact absurd rfl hc
  | load | loadFailed | reset | frameAck | keyPress | keys => exact ⟨_, rfl⟩

theorem step_answers_of_nop {s : State} (hpol : s.cfg.reservedPolicy = .nop) : ∃ t, step s = .next t := by
  rcases step_cases s with ⟨q, -, hs⟩ | ⟨c, q, hc, -, hs⟩ <;> rw [hs]
  · exact tick_answers_of_nop (s := { s with hostQueue := q }) hpol
  · exact hostCommand_answers_of_ne_tick hc _

/-- Settles O53: a fault has no constructor to be made with, and a step is a tick or a host command, each of which
answers where no instruction is refused. -/
theorem noStepFaultsOrHalts : Obligations.NoStepFaultsOrHalts :=
  ⟨fun _ r => (nomatch r), fun _ => step_answers_of_nop⟩

end Sys2Proof.Machine
end

section
/-! PROOFS. 30_encoding.md sections 2 to 4: decoding and encoding are inverse (R46 to R51), and the decoded row of the
opcode table is the match of lowest priority number (R48). -/

namespace Sys2Proof

/-! ## Every word is the word of its instruction -/

/-- `i` is a well-formed instruction whose word is `w`. -/
def Instr.standsFor (i : Instr) (w : Word) : Prop := i.wellFormed = true ∧ encode i = w

theorem encodeA_of_op {w : Word} {op : Nibble} (hop : fieldOp w = op) : encodeA op (fieldNNN w) = w :=
  hop ▸ encodeA_fields w

theorem encodeXNN_of_op {w : Word} {op : Nibble} (hop : fieldOp w = op) : encodeXNN op (fieldX w) (fieldNN w) = w :=
  hop ▸ encodeXNN_fields w

theorem encodeXNN_of_op_nn {w : Word} {op : Nibble} {nn : Byte} (hop : fieldOp w = op) (hnn : fieldNN w = nn) :
    encodeXNN op (fieldX w) nn = w :=
  hnn ▸ encodeXNN_of_op hop

theorem encodeXYN_of_op_n {w : Word} {op n : Nibble} (hop : fieldOp w = op) (hn : fieldN w = n) :
    encodeXYN op (fieldX w) (fieldY w) n = w :=
  hop ▸ hn ▸ encodeXYN_fields w

theorem reservedFields_families {op n : Nibble} {nn : Byte} (h : reservedFields op n nn = true) :
    op = 0x5 ∨ op = 0x8 ∨ op = 0x9 ∨ op = 0xE ∨ op = 0xF := by
  simp only [reservedFields, Bool.or_eq_true, Bool.and_eq_true, beq_iff_eq] at h
  tauto

theorem reservedFields_family5 (n : Nibble) (nn : Byte) : reservedFields 0x5 n nn = true ↔ n ≠ 0x0 := by
  simp [reservedFields]

theorem reservedFields_family8 (n : Nibble) (nn : Byte) :
    reservedFields 0x8 n nn = true ↔ n ∈ [0x8, 0x9, 0xA, 0xB, 0xC, 0xD, 0xF] := by
  simp [reservedFields]

theorem reservedFields_family9 (n : Nibble) (nn : Byte) : reservedFields 0x9 n nn = true ↔ n ≠ 0x0 := by
  simp [reservedFields]

theorem reservedFields_familyE (n : Nibble) (nn : Byte) :
    reservedFields 0xE n nn = true ↔ nn ∉ [0x9E, 0xA1] := by
  simp [reservedFields]

theorem reservedFields_familyF (n : Nibble) (nn : Byte) :
    reservedFields 0xF n nn = true ↔ nn ∉ [0x07, 0x0A, 0x15, 0x18, 0x1E, 0x29, 0x33, 0x55, 0x65] := by
  simp [reservedFields]

/-- The nine selectors of family 0x8 and its seven reserved ones are all sixteen. -/
theorem nibble_reserved_of_not_selector {n : Nibble}
    (h : n ∉ [0x0, 0x1, 0x2, 0x3, 0x4, 0x5, 0x6, 0x7, 0xE]) : n ∈ [0x8, 0x9, 0xA, 0xB, 0xC, 0xD, 0xF] := by
  revert n; decide

theorem reserved_standsFor {w : Word} (h : reservedFields (fieldOp w) (fieldN w) (fieldNN w) = true) :
    (Instr.reserved w).standsFor w :=
  ⟨(isReservedWord_fields w).trans h, rfl⟩

/-- A `sys` word is not one of the two listed words of family 0x0. -/
theorem sys_standsFor {w : Word} (hop : fieldOp w = 0x0) (hclear : w ≠ 0x00E0) (hret : w ≠ 0x00EE) :
    (Instr.sys (fieldNNN w)).standsFor w := by
  have hw : encodeA 0x0 (fieldNNN w) = w := encodeA_of_op hop
  have hne0 : fieldNNN w ≠ 0x0E0 := fun e => hclear (by rw [← hw, e]; rfl)
  have hneE : fieldNNN w ≠ 0x0EE := fun e => hret (by rw [← hw, e]; rfl)
  exact ⟨by simpa [Instr.wellFormed] using And.intro hne0 hneE, hw⟩

theorem decodeFamily0_standsFor {w : Word} (hop : fieldOp w = 0x0) : (decodeFamily0 w).standsFor w := by
  unfold decodeFamily0
  split_ifs with hclear hret
  · exact ⟨rfl, hclear.symm⟩
  · exact ⟨rfl, hret.symm⟩
  · exact sys_standsFor hop hclear hret

theorem decodeFamily8_standsFor {w : Word} (hop : fieldOp w = 0x8) : (decodeFamily8 w).standsFor w := by
  unfold decodeFamily8
  split_ifs with h0 h1 h2 h3 h4 h5 h6 h7 hE
  case neg =>
    have hn : fieldN w ∉ [0x0, 0x1, 0x2, 0x3, 0x4, 0x5, 0x6, 0x7, 0xE] := by
      simpa using ⟨h0, h1, h2, h3, h4, h5, h6, h7, hE⟩
    exact reserved_standsFor (hop ▸ (reservedFields_family8 ..).2 (nibble_reserved_of_not_selector hn))
  all_goals exact ⟨rfl, encodeXYN_of_op_n hop ‹_›⟩

theorem decodeFamilyE_standsFor {w : Word} (hop : fieldOp w = 0xE) : (decodeFamilyE w).standsFor w := by
  unfold decodeFamilyE
  split_ifs with h9E hA1
  case neg => exact reserved_standsFor (hop ▸ (reservedFields_familyE ..).2 (by simpa using ⟨h9E, hA1⟩))
  all_goals exact ⟨rfl, encodeXNN_of_op_nn hop ‹_›⟩

theorem decodeFamilyF_standsFor {w : Word} (hop : fieldOp w = 0xF) : (decodeFamilyF w).standsFor w := by
  unfold decodeFamilyF
  split_ifs with h07 h0A h15 h18 h1E h29 h33 h55 h65
  case neg =>
    exact reserved_standsFor
      (hop ▸ (reservedFields_familyF ..).2 (by simpa using ⟨h07, h0A, h15, h18, h1E, h29, h33, h55, h65⟩))
  all_goals exact ⟨rfl, encodeXNN_of_op_nn hop ‹_›⟩

/-- By opcode family, and in a family by its selector. -/
theorem decode_standsFor (w : Word) : (decode w).standsFor w := by
  rcases nibble_cases (fieldOp w) with h | h | h | h | h | h | h | h | h | h | h | h | h | h | h | h
  · exact decode_family0 h ▸ decodeFamily0_standsFor h
  · exact decode_family1 h ▸ ⟨rfl, encodeA_of_op h⟩
  · exact decode_family2 h ▸ ⟨rfl, encodeA_of_op h⟩
  · exact decode_family3 h ▸ ⟨rfl, encodeXNN_of_op h⟩
  · exact decode_family4 h ▸ ⟨rfl, encodeXNN_of_op h⟩
  · rw [decode_family5 h]
    split_ifs with hn
    · exact ⟨rfl, encodeXYN_of_op_n h hn⟩
    · exact reserved_standsFor (h ▸ (reservedFields_family5 ..).2 hn)
  · exact decode_family6 h ▸ ⟨rfl, encodeXNN_of_op h⟩
  · exact decode_family7 h ▸ ⟨rfl, encodeXNN_of_op h⟩
  · exact decode_family8 h ▸ decodeFamily8_standsFor h
  · rw [decode_family9 h]
    split_ifs with hn
    · exact ⟨rfl, encodeXYN_of_op_n h hn⟩
    · exact reserved_standsFor (h ▸ (reservedFields_family9 ..).2 hn)
  · exact decode_familyA h ▸ ⟨rfl, encodeA_of_op h⟩
  · exact decode_familyB h ▸ ⟨rfl, encodeA_of_op h⟩
  · exact decode_familyC h ▸ ⟨rfl, encodeXNN_of_op h⟩
  · exact decode_familyD h ▸ ⟨rfl, encodeXYN_of_op_n h rfl⟩
  · exact decode_familyE h ▸ decodeFamilyE_standsFor h
  · exact decode_familyF h ▸ decodeFamilyF_standsFor h

theorem decode_wellFormed (w : Word) : (decode w).wellFormed = true := (decode_standsFor w).1

@[simp] theorem encode_decode (w : Word) : encode (decode w) = w := (decode_standsFor w).2

/-- Settles O2: by opcode family and selector, a word is rebuilt from the fields the decoder took out of it. -/
theorem encodeOfDecodeIsTheWord : Obligations.EncodeOfDecodeIsTheWord := fun w =>
  ⟨decode_wellFormed w, encode_decode w⟩

/-! ## Every well-formed instruction is read back -/

theorem decode_encodeA_sys {nnn : Addr} (h : (Instr.sys nnn).wellFormed = true) : decode (encodeA 0x0 nnn) = .sys nnn := by
  have hne : nnn ≠ 0x0E0 ∧ nnn ≠ 0x0EE := by simpa [Instr.wellFormed] using h
  have hclear : encodeA 0x0 nnn ≠ 0x00E0 := fun e => hne.1 ((fieldNNN_encodeA 0x0 nnn).symm.trans (congrArg fieldNNN e))
  have hret : encodeA 0x0 nnn ≠ 0x00EE := fun e => hne.2 ((fieldNNN_encodeA 0x0 nnn).symm.trans (congrArg fieldNNN e))
  rw [decode_family0 (fieldOp_encodeA ..), decodeFamily0, if_neg hclear, if_neg hret, fieldNNN_encodeA]

/-- A reserved word is in one of five families, with a selector that is none of the family's listed ones. -/
theorem decode_reserved {w : Word} (h : isReservedWord w = true) : decode w = .reserved w := by
  rw [isReservedWord_fields] at h
  rcases reservedFields_families h with hop | hop | hop | hop | hop <;> rw [hop] at h
  · rw [decode_family5 hop, if_neg ((reservedFields_family5 ..).1 h)]
  · have hn := (reservedFields_family8 ..).1 h
    simp only [List.mem_cons, List.not_mem_nil, or_false] at hn
    rw [decode_family8 hop, decodeFamily8]
    rcases hn with hn | hn | hn | hn | hn | hn | hn <;> rw [hn] <;> rfl
  · rw [decode_family9 hop, if_neg ((reservedFields_family9 ..).1 h)]
  · have hnn := (reservedFields_familyE ..).1 h
    simp only [List.mem_cons, List.not_mem_nil, or_false, not_or] at hnn
    rw [decode_familyE hop]
    simp only [decodeFamilyE, hnn, if_false]
  · have hnn := (reservedFields_familyF ..).1 h
    simp only [List.mem_cons, List.not_mem_nil, or_false, not_or] at hnn
    rw [decode_familyF hop]
    simp only [decodeFamilyF, hnn, if_false]

/-- By constructor: the family and the selector are read back from the encoded word, and then the operands. -/
theorem decode_encode {i : Instr} (h : i.wellFormed = true) : decode (encode i) = i := by
  cases i with
  | clear | ret => decide
  | sys nnn => exact decode_encodeA_sys h
  | reserved w => exact decode_reserved h
  | jump | call | loadIndex | jumpOffset =>
    simp only [encode, decode, fieldOp_encodeA, fieldNNN_encodeA]; rfl
  | skipIfEq | skipIfNeq | loadImm | addImm | random =>
    simp only [encode, decode, fieldOp_encodeXNN, fieldX_encodeXNN, fieldNN_encodeXNN]; rfl
  | skipIfRegEq | skipIfRegNeq | draw =>
    simp only [encode, decode, fieldOp_encodeXYN, fieldX_encodeXYN, fieldY_encodeXYN, fieldN_encodeXYN]; rfl
  | mov | or | and | xor | add | sub | shr | subn | shl =>
    simp only [encode, decode_family8, decodeFamily8, fieldOp_encodeXYN, fieldX_encodeXYN, fieldY_encodeXYN, fieldN_encodeXYN]
    rfl
  | skipIfKey | skipIfNotKey =>
    simp only [encode, decode_familyE, decodeFamilyE, fieldOp_encodeXNN, fieldX_encodeXNN, fieldNN_encodeXNN]; rfl
  | getDelay | waitForKey | setDelay | setSound | addIndex | spriteAddr | storeBcd | storeRegs | loadRegs =>
    simp only [encode, decode_familyF, decodeFamilyF, fieldOp_encodeXNN, fieldX_encodeXNN, fieldNN_encodeXNN]; rfl

theorem decodeBytes_encodeBytes (i : Instr) : decodeBytes (encodeBytes i) = .ok (decode (encode i), []) := by
  rw [encodeBytes, decodeBytes_two, wordOfBytes_bytes]

/-- Settles O1: by cases on the instruction, and two bytes in order are their word. -/
theorem decodeOfEncodeIsTheInstruction : Obligations.DecodeOfEncodeIsTheInstruction := fun i h =>
  ⟨decode_encode h, by rw [decodeBytes_encodeBytes, decode_encode h]⟩

/-! ## The decoded row of the opcode table (R48) -/

theorem opcodeRow_mem_opcodeTable (i : Instr) : opcodeRow i ∈ opcodeTable := by
  cases i <;> simp [opcodeTable, opcodeRepresentatives, opcodeRow]

/-- The law of every instruction's own row. -/
theorem encodesRow (i : Instr) : Laws.EncodesRow.Statement i :=
  match i with
  | .clear => Laws.EncodesRow.clear | .ret => Laws.EncodesRow.ret | .jump nnn => Laws.EncodesRow.jump nnn
  | .call nnn => Laws.EncodesRow.call nnn | .skipIfEq x nn => Laws.EncodesRow.skipIfEq x nn
  | .skipIfNeq x nn => Laws.EncodesRow.skipIfNeq x nn | .skipIfRegEq x y => Laws.EncodesRow.skipIfRegEq x y
  | .loadImm x nn => Laws.EncodesRow.loadImm x nn | .addImm x nn => Laws.EncodesRow.addImm x nn
  | .mov x y => Laws.EncodesRow.mov x y | .or x y => Laws.EncodesRow.or x y | .and x y => Laws.EncodesRow.and x y
  | .xor x y => Laws.EncodesRow.xor x y | .add x y => Laws.EncodesRow.add x y | .sub x y => Laws.EncodesRow.sub x y
  | .shr x y => Laws.EncodesRow.shr x y | .subn x y => Laws.EncodesRow.subn x y | .shl x y => Laws.EncodesRow.shl x y
  | .skipIfRegNeq x y => Laws.EncodesRow.skipIfRegNeq x y | .loadIndex nnn => Laws.EncodesRow.loadIndex nnn
  | .jumpOffset nnn => Laws.EncodesRow.jumpOffset nnn | .random x nn => Laws.EncodesRow.random x nn
  | .draw x y n => Laws.EncodesRow.draw x y n | .skipIfKey x => Laws.EncodesRow.skipIfKey x
  | .skipIfNotKey x => Laws.EncodesRow.skipIfNotKey x | .getDelay x => Laws.EncodesRow.getDelay x
  | .waitForKey x => Laws.EncodesRow.waitForKey x | .setDelay x => Laws.EncodesRow.setDelay x
  | .setSound x => Laws.EncodesRow.setSound x | .addIndex x => Laws.EncodesRow.addIndex x
  | .spriteAddr x => Laws.EncodesRow.spriteAddr x | .storeBcd x => Laws.EncodesRow.storeBcd x
  | .storeRegs x => Laws.EncodesRow.storeRegs x | .loadRegs x => Laws.EncodesRow.loadRegs x
  | .sys nnn => Laws.EncodesRow.sys nnn | .reserved w => Laws.EncodesRow.reserved w

/-- The row of a decoded instruction matches its word, which is the word the instruction encodes to. -/
theorem opcodeRow_decode_matchesWord (w : Word) : (opcodeRow (decode w)).matchesWord w = true := by
  have h := encodesRow (decode w)
  rw [Laws.EncodesRow.Statement, encode_decode] at h
  exact beq_iff_eq.2 h

theorem opcodeRow_reserved_last (i : Instr) (w : Word) :
    opcodeRow i = opcodeRow (.reserved w) ∨ (opcodeRow i).priority < (opcodeRow (.reserved w)).priority := by
  cases i with
  | reserved => exact .inl rfl
  | sys => exact .inr Nat.one_lt_two
  | _ => exact .inr Nat.two_pos

theorem opcodeRow_decodeFamily0 (w : Word) (nnn : Addr) :
    opcodeRow (decodeFamily0 w) = opcodeRow (.sys nnn)
      ∨ (opcodeRow (decodeFamily0 w)).priority < (opcodeRow (.sys nnn)).priority := by
  unfold decodeFamily0
  split_ifs
  · exact .inr Nat.one_pos
  · exact .inr Nat.one_pos
  · exact .inl rfl

/-- A row that matches is the decoded one, or stands behind it: a listed row's mask fixes the family and the selector
the decoder tests, the row `sys` the family alone, and the row `reserved` nothing. -/
theorem opcodeRow_decode_of_matchesWord {i : Instr} {w : Word} (h : (opcodeRow i).matchesWord w = true) :
    opcodeRow (decode w) = opcodeRow i ∨ (opcodeRow (decode w)).priority < (opcodeRow i).priority := by
  have hmask : w &&& (opcodeRow i).mask = (opcodeRow i).pattern := beq_iff_eq.1 h
  cases i with simp only [opcodeRow] at hmask
  | clear | ret =>
    have hw : w = _ := (BitVec.and_allOnes (x := w)).symm.trans hmask
    exact .inl (by rw [hw]; rfl)
  | jump | call | skipIfEq | skipIfNeq | loadImm | addImm | loadIndex | jumpOffset | random | draw =>
    exact .inl (by simp only [decode, op_of_mask hmask]; rfl)
  | skipIfRegEq | skipIfRegNeq | mov | or | and | xor | add | sub | shr | subn | shl =>
    obtain ⟨hop, hn⟩ := op_n_of_mask hmask
    exact .inl (by simp only [decode, decodeFamily8, hop, hn]; rfl)
  | skipIfKey | skipIfNotKey | getDelay | waitForKey | setDelay | setSound | addIndex | spriteAddr | storeBcd
  | storeRegs | loadRegs =>
    obtain ⟨hop, hnn⟩ := op_nn_of_mask hmask
    exact .inl (by simp only [decode, decodeFamilyE, decodeFamilyF, hop, hnn]; rfl)
  | sys nnn =>
    rw [decode_family0 (op_of_mask hmask)]
    exact opcodeRow_decodeFamily0 w nnn
  | reserved v => exact opcodeRow_reserved_last (decode w) v

/-- Settles O3: the decoded row matches, as decoding is undone by encoding, and each row that matches is that row or of a
higher priority number. -/
theorem decodedRowIsTheUniqueMatch : Obligations.DecodedRowIsTheUniqueMatch := by
  refine fun w => ⟨opcodeRow_mem_opcodeTable _, opcodeRow_decode_matchesWord w, fun r hr hmatch => ?_⟩
  obtain ⟨i, -, rfl⟩ := List.mem_map.1 hr
  exact (opcodeRow_decode_of_matchesWord hmatch).imp_left Eq.symm

/-- Settles O5: fourteen words, each decoded. -/
theorem sampleWordsDecodeAsTheSpecReadsThem : Obligations.SampleWordsDecodeAsTheSpecReadsThem := by
  unfold Obligations.SampleWordsDecodeAsTheSpecReadsThem
  decide

end Sys2Proof
end

section
/-! PROOFS. 41_control_flow.md: a return after a call (R65, R66), the skips on two registers (R71, R72) and the reserved
words (R73). -/

namespace Sys2Proof.Machine

/-! ## The reserved words (R73) -/

theorem reservedWord_of_nop {s : State} (h : s.cfg.reservedPolicy = .nop) (w : Word) : reservedWord w s = .next s := by
  rw [reservedWord, h]

theorem reservedWord_of_refuse {s : State} (h : s.cfg.reservedPolicy = .refuse) (w : Word) :
    reservedWord w s = .refused (.reservedWord w) := by
  rw [reservedWord, h]

theorem sys_or_reserved_of_priority {i : Instr} (h : (opcodeRow i).priority ≠ 0) :
    (∃ nnn, i = .sys nnn) ∨ ∃ w, i = .reserved w := by
  cases i with
  | sys nnn => exact .inl ⟨nnn, rfl⟩
  | reserved w => exact .inr ⟨w, rfl⟩
  | _ => exact absurd rfl h

/-- A word without a listed row decodes to `sys` or `reserved`, whose encoding is the word. -/
theorem decode_of_no_listed_row {w : Word} (h : ∀ r ∈ opcodeTable, r.priority = 0 → r.matchesWord w = false) :
    (∃ nnn, decode w = .sys nnn ∧ w = encodeA 0x0 nnn) ∨ decode w = .reserved w := by
  have hpriority : (opcodeRow (decode w)).priority ≠ 0 := fun h0 => by
    have hnot := h _ (opcodeRow_mem_opcodeTable _) h0
    rw [opcodeRow_decode_matchesWord] at hnot
    cases hnot
  have hw : encode (decode w) = w := encode_decode w
  rcases sys_or_reserved_of_priority hpriority with ⟨nnn, hd⟩ | ⟨v, hd⟩ <;> rw [hd] at hw
  · exact .inl ⟨nnn, hd, hw.symm⟩
  · exact .inr (hd.trans (congrArg Instr.reserved hw))

/-- Settles O26: the policy's two cases for both rows, and the row of a word that no listed row matches. -/
theorem reservedWordsDoNothingOrAreRefused : Obligations.ReservedWordsDoNothingOrAreRefused :=
  ⟨fun _ _ => ⟨fun h => reservedWord_of_nop h _, fun h => reservedWord_of_refuse h _⟩,
    fun _ _ => ⟨fun h => reservedWord_of_nop h _, fun h => reservedWord_of_refuse h _⟩,
    fun _ h => decode_of_no_listed_row h⟩

/-! ## A return after a call (R65, R66) -/

theorem sameStack_top {s t : State} (h : sameStack s t) : t.top = s.top := by
  obtain ⟨hsp, hstack⟩ := h
  simp only [State.top, hsp, hstack]

/-- Settles O22: what `call` pushed is on top of any state with the same stack, and `return` takes it off again. -/
theorem returnAfterCallComesBack : Obligations.ReturnAfterCallComesBack := by
  intro nnn s t u hpc hroom hcall hstack
  rw [exec_call_room hroom] at hcall
  cases hcall
  have htop : u.top = some s.pc := (sameStack_top hstack).trans (State.top_push hroom s.pc)
  have hdepth : u.sp.val = s.sp.val + 1 := (congrArg Fin.val hstack.1).trans (State.push_room hroom s.pc).1
  refine ⟨_, exec_ret_of_top_some htop, BitVec.eq_of_toNat_eq ?_, Fin.ext ?_⟩
  · rw [State.setPc_toNat]
    exact Nat.mod_eq_of_lt hpc
  · rw [State.setPc_sp, State.drop_sp, hdepth, Nat.add_sub_cancel]

/-! ## The skips on two registers (R71, R72) -/

/-- Settles O25: by cases on the comparison, which one skip takes as it is and the other negated. -/
theorem skipsOnTwoRegisters : Obligations.SkipsOnTwoRegisters := by
  refine fun x y s => ⟨decode_encode (i := .skipIfRegEq x y) rfl, decode_encode (i := .skipIfRegNeq x y) rfl,
    fun heq => ⟨?_, ?_⟩, fun hne => ⟨?_, ?_⟩⟩
  · exact congrArg Host.Outcome.next (s.skipIf_of_true (beq_iff_eq.2 heq))
  · exact congrArg Host.Outcome.next (s.skipIf_of_false (bne_eq_false_iff_eq.2 heq))
  · exact congrArg Host.Outcome.next (s.skipIf_of_false (beq_eq_false_iff_ne.2 hne))
  · exact congrArg Host.Outcome.next (s.skipIf_of_true (bne_iff_ne.2 hne))

end Sys2Proof.Machine
end

section
/-! PROOFS. 10_state.md sections 1 to 10 and 20_memory.md R30: the writers of each part of the state. -/

namespace Sys2Proof.Machine

/-! ## Memory (R30) -/

theorem exec_keeps_mem {i : Instr} {s t : State} (hbcd : ∀ x, i ≠ .storeBcd x) (hregs : ∀ x, i ≠ .storeRegs x)
    (h : exec i s = .next t) : t.mem = s.mem := by
  cases i with
  | storeBcd x => exact absurd rfl (hbcd x)
  | storeRegs x => exact absurd rfl (hregs x)
  | ret => rcases execRet_next h with rfl | ⟨a, rfl⟩ <;> simp
  | call nnn => rcases execCall_next h with rfl | rfl <;> simp
  | sys nnn => simp [reservedWord_next h]
  | reserved w => simp [reservedWord_next h]
  | _ => cases h; simp

/-- Settles O9: by cases on the instruction, the whole memory stays as it is. -/
theorem onlyStoresChangeMemory : Obligations.OnlyStoresChangeMemory := fun _ _ _ hbcd hregs h =>
  State.memRead_eq_of_mem (exec_keeps_mem hbcd hregs h)

/-! ## Registers (R12) -/

theorem sameRegsBut_of_v {s t : State} (h : t.v = s.v) (written : List Reg) : sameRegsBut written s t :=
  fun r _ => State.reg_eq_of_v h r

theorem sameRegsBut_setReg (s : State) (x : Reg) (b : Byte) : sameRegsBut [x] s (s.setReg x b) :=
  fun _ hr => State.reg_setReg_other s b (List.ne_of_not_mem_cons hr)

theorem sameRegsBut_writeResultAndFlag (s : State) (x : Reg) (b : Byte) (f : Bool) :
    sameRegsBut [x, regF] s (s.writeResultAndFlag x b f) := by
  obtain ⟨-, -, -, hregs, -⟩ := wroteWithFlag_writeResultAndFlag s x b f
  exact hregs

theorem sameRegsBut_loadBlock (s : State) (x : Reg) : sameRegsBut (regsWritten (.loadRegs x)) s (s.loadBlock (x.val + 1)) := by
  intro r hr
  have habove : ¬ r.val < x.val + 1 := fun hlt =>
    hr (List.mem_filter.2 ⟨List.mem_finRange r, decide_eq_true (Nat.le_of_lt_succ hlt)⟩)
  rw [State.reg_loadBlock s x.isLt, if_neg habove]

/-- Settles O11: by cases on the instruction: one register write, a result with its flag, a loaded block, or none. -/
theorem onlyNamedRegistersAreWritten : Obligations.OnlyNamedRegistersAreWritten := by
  intro i s t h
  cases i with
  | loadImm | addImm | mov | or | and | xor | getDelay => cases h; exact sameRegsBut_setReg s _ _
  | random x nn => cases h; exact sameRegsBut_setReg s.requestRandom _ _
  | draw x y n => cases h; exact sameRegsBut_setReg s regF _
  | add | sub | shr | subn | shl => cases h; exact sameRegsBut_writeResultAndFlag s _ _ _
  | loadRegs x => cases h; exact sameRegsBut_loadBlock s x
  | ret => rcases execRet_next h with rfl | ⟨a, rfl⟩ <;> exact sameRegsBut_of_v rfl _
  | call nnn =>
    rcases execCall_next h with rfl | rfl
    · exact sameRegsBut_of_v rfl _
    · exact sameRegsBut_of_v (s.push_v s.pc) _
  | sys | reserved => exact reservedWord_next h ▸ sameRegsBut_of_v rfl _
  | _ => cases h; exact sameRegsBut_of_v (by simp) _

/-! ## The stack, the display and I (R15, R16, R19, R20) -/

theorem exec_keeps_stack {i : Instr} {s t : State} (hret : i ≠ .ret) (hcall : ∀ a, i ≠ .call a)
    (h : exec i s = .next t) : sameStack s t := by
  cases i with
  | ret => exact absurd rfl hret
  | call nnn => exact absurd rfl (hcall nnn)
  | sys nnn => simp [reservedWord_next h, sameStack]
  | reserved w => simp [reservedWord_next h, sameStack]
  | _ => cases h; simp [sameStack]

theorem exec_keeps_display {i : Instr} {s t : State} (hclear : i ≠ .clear) (hdraw : ∀ x y n, i ≠ .draw x y n)
    (h : exec i s = .next t) : sameDisplay s t := by
  cases i with
  | clear => exact absurd rfl hclear
  | draw x y n => exact absurd rfl (hdraw x y n)
  | ret => rcases execRet_next h with rfl | ⟨a, rfl⟩ <;> simp [sameDisplay]
  | call nnn => rcases execCall_next h with rfl | rfl <;> simp [sameDisplay]
  | sys nnn => simp [reservedWord_next h, sameDisplay]
  | reserved w => simp [reservedWord_next h, sameDisplay]
  | _ => cases h; simp [sameDisplay]

theorem exec_keeps_i {i : Instr} {s t : State} (hload : ∀ a, i ≠ .loadIndex a) (hadd : ∀ x, i ≠ .addIndex x)
    (hsprite : ∀ x, i ≠ .spriteAddr x) (h : exec i s = .next t) : t.i = s.i := by
  cases i with
  | loadIndex nnn => exact absurd rfl (hload nnn)
  | addIndex x => exact absurd rfl (hadd x)
  | spriteAddr x => exact absurd rfl (hsprite x)
  | ret => rcases execRet_next h with rfl | ⟨a, rfl⟩ <;> simp
  | call nnn => rcases execCall_next h with rfl | rfl <;> simp
  | sys nnn => simp [reservedWord_next h]
  | reserved w => simp [reservedWord_next h]
  | _ => cases h; simp

/-- Settles O12: by cases on the instruction, once for each of the three parts. -/
theorem stackDisplayAndIndexHaveTheirOwnWriters : Obligations.StackDisplayAndIndexHaveTheirOwnWriters := fun _ _ _ h =>
  ⟨fun hret hcall => exec_keeps_stack hret hcall h, fun hclear hdraw => exec_keeps_display hclear hdraw h,
    fun hload hadd hsprite => exec_keeps_i hload hadd hsprite h⟩

/-! ## PC, the mode, the random port and the inputs (R14, R22, R23, R25, R26) -/

theorem exec_keeps_pc {i : Instr} {s t : State} (hpc : mayWritePc i = false) (h : exec i s = .next t) : t.pc = s.pc := by
  cases i with
  | ret | jump | call | jumpOffset | skipIfEq | skipIfNeq | skipIfRegEq | skipIfRegNeq | skipIfKey | skipIfNotKey =>
    cases hpc
  | sys nnn => simp [reservedWord_next h]
  | reserved w => simp [reservedWord_next h]
  | _ => cases h; simp

theorem exec_keeps_mode {i : Instr} {s t : State} (hwait : ∀ x, i ≠ .waitForKey x) (h : exec i s = .next t) :
    t.mode = s.mode := by
  cases i with
  | waitForKey x => exact absurd rfl (hwait x)
  | ret => rcases execRet_next h with rfl | ⟨a, rfl⟩ <;> simp
  | call nnn => rcases execCall_next h with rfl | rfl <;> simp
  | sys nnn => simp [reservedWord_next h]
  | reserved w => simp [reservedWord_next h]
  | _ => cases h; simp

theorem exec_keeps_random {i : Instr} {s t : State} (hrandom : ∀ x nn, i ≠ .random x nn) (h : exec i s = .next t) :
    sameRandom s t := by
  cases i with
  | random x nn => exact absurd rfl (hrandom x nn)
  | ret => rcases execRet_next h with rfl | ⟨a, rfl⟩ <;> simp [sameRandom]
  | call nnn => rcases execCall_next h with rfl | rfl <;> simp [sameRandom]
  | sys nnn => simp [reservedWord_next h, sameRandom]
  | reserved w => simp [reservedWord_next h, sameRandom]
  | _ => cases h; simp [sameRandom]

theorem exec_keeps_inputs {i : Instr} {s t : State} (h : exec i s = .next t) :
    t.keysIn = s.keysIn ∧ t.hostQueue = s.hostQueue := by
  cases i with
  | ret => rcases execRet_next h with rfl | ⟨a, rfl⟩ <;> simp
  | call nnn => rcases execCall_next h with rfl | rfl <;> simp
  | sys nnn => simp [reservedWord_next h]
  | reserved w => simp [reservedWord_next h]
  | _ => cases h; simp

theorem exec_keeps_outside {i : Instr} {s t : State} (h : exec i s = .next t) : sameOutside s t := by
  obtain ⟨hcfg, himage⟩ := exec_cfg_image h
  exact ⟨hcfg, himage, exec_keeps_inputs h⟩

/-- Settles O13: by cases on the instruction, once for each part. -/
theorem pcModeAndInputsHaveTheirOwnWriters : Obligations.PcModeAndInputsHaveTheirOwnWriters := fun _ _ _ h =>
  ⟨fun hpc => exec_keeps_pc hpc h, fun hwait => exec_keeps_mode hwait h, fun hrandom => exec_keeps_random hrandom h,
    exec_keeps_outside h⟩

end Sys2Proof.Machine
end

section
/-! PROOFS. 10_state.md R20, R22 and 20_memory.md R30: which instructions read memory, `frame_dirty`, the mode and the
key level. Each part is put to another value, and what an instruction does under the change is compared. -/

namespace Sys2Proof.Machine

/-! ## A change of the four parts -/

/-- A change of memory, `frame_dirty`, the mode and the key level. -/
structure Overlay where
  mem   : Memory → Memory
  dirty : Bool → Bool
  mode  : Mode → Mode
  keys  : BitVec 16 → BitVec 16

/-- `s` with the change `o` made to it. -/
def State.overlay (s : State) (o : Overlay) : State :=
  { s with mem := o.mem s.mem, frameDirty := o.dirty s.frameDirty, mode := o.mode s.mode, keysIn := o.keys s.keysIn }

/-- `o` leaves alone the parts that `i` reads or writes. -/
def Overlay.spares (o : Overlay) (i : Instr) : Prop :=
  match i with
  | .clear => o.dirty = id
  | .draw _ _ _ => o.mem = id ∧ o.dirty = id
  | .storeBcd _ | .storeRegs _ | .loadRegs _ => o.mem = id
  | .waitForKey _ => o.mode = id
  | .skipIfKey _ | .skipIfNotKey _ => o.keys = id
  | .ret | .jump _ | .call _ | .skipIfEq _ _ | .skipIfNeq _ _ | .skipIfRegEq _ _ | .loadImm _ _ | .addImm _ _
  | .mov _ _ | .or _ _ | .and _ _ | .xor _ _ | .add _ _ | .sub _ _ | .shr _ _ | .subn _ _ | .shl _ _
  | .skipIfRegNeq _ _ | .loadIndex _ | .jumpOffset _ | .random _ _ | .getDelay _ | .setDelay _ | .setSound _
  | .addIndex _ | .spriteAddr _ | .sys _ | .reserved _ => True

/-! ## The operations under a change -/

theorem State.skipIf_overlay (s : State) (o : Overlay) (taken : Bool) :
    (s.overlay o).skipIf taken = (s.skipIf taken).overlay o := by
  cases taken <;> rfl

theorem State.writeResultAndFlag_overlay (s : State) (o : Overlay) (x : Reg) (r : Byte) (f : Bool) :
    (s.overlay o).writeResultAndFlag x r f = (s.writeResultAndFlag x r f).overlay o := by
  simp only [State.writeResultAndFlag, State.overlay]; split <;> rfl

theorem State.push_overlay (s : State) (o : Overlay) (w : Word) : (s.overlay o).push w = (s.push w).overlay o := by
  unfold State.push
  by_cases h : s.sp.val < 16
  · rw [dif_pos h, dif_pos (show (s.overlay o).sp.val < 16 from h)]
    rfl
  · rw [dif_neg h, dif_neg (show ¬ (s.overlay o).sp.val < 16 from h)]

theorem State.keyPressed_overlay (s : State) {o : Overlay} (h : o.keys = id) (x : Reg) :
    (s.overlay o).keyPressed x = s.keyPressed x := by
  have hkeys : (s.overlay o).keysIn = s.keysIn := congrFun h s.keysIn
  have hcfg : (s.overlay o).cfg = s.cfg := rfl
  have hreg : (s.overlay o).reg x = s.reg x := rfl
  rw [State.keyPressed, State.keyPressed, hkeys, hcfg, hreg]

theorem State.memRead_overlay (s : State) {o : Overlay} (h : o.mem = id) (a : Nat) :
    (s.overlay o).memRead a = s.memRead a :=
  State.memRead_eq_of_mem (congrFun h s.mem) a

theorem State.memWrite_overlay (s : State) {o : Overlay} (h : o.mem = id) (a : Nat) (b : Byte) :
    (s.overlay o).memWrite a b = (s.memWrite a b).overlay o := by
  simp only [State.overlay, State.memWrite, h, id]

theorem State.storeBlock_overlay (s : State) {o : Overlay} (h : o.mem = id) (n : Nat) :
    (s.overlay o).storeBlock n = (s.storeBlock n).overlay o := by
  induction n with
  | zero => rfl
  | succ k ih => rw [State.storeBlock, ih, State.memWrite_overlay _ h]; rfl

theorem State.loadBlock_overlay (s : State) {o : Overlay} (h : o.mem = id) (n : Nat) :
    (s.overlay o).loadBlock n = (s.loadBlock n).overlay o := by
  induction n with
  | zero => rfl
  | succ k ih => rw [State.loadBlock, ih, State.memRead_overlay s h]; rfl

theorem blitSprite_overlay (s : State) {o : Overlay} (h : o.mem = id) (y0 x0 n : Nat) :
    blitSprite (s.overlay o) y0 x0 n = blitSprite s y0 x0 n := by
  induction n with
  | zero => rfl
  | succ r ih => rw [blitSprite, ih, State.memRead_overlay s h]; rfl

theorem execRet_overlay (s : State) (o : Overlay) : execRet (s.overlay o) = mapNext (·.overlay o) (execRet s) := by
  have htop : (s.overlay o).top = s.top := rfl
  rw [execRet, execRet, htop]
  cases s.top <;> rfl

theorem execCall_overlay (nnn : Addr) (s : State) (o : Overlay) :
    execCall nnn (s.overlay o) = mapNext (·.overlay o) (execCall nnn s) := by
  have hsp : (s.overlay o).sp = s.sp := rfl
  rw [execCall, execCall, hsp, State.push_overlay]
  split <;> rfl

theorem reservedWord_overlay (w : Word) (s : State) (o : Overlay) :
    reservedWord w (s.overlay o) = mapNext (·.overlay o) (reservedWord w s) := by
  have hcfg : (s.overlay o).cfg = s.cfg := rfl
  rw [reservedWord, reservedWord, hcfg]
  cases s.cfg.reservedPolicy <;> rfl

theorem execClear_overlay (s : State) {o : Overlay} (h : o.dirty = id) :
    execClear (s.overlay o) = mapNext (·.overlay o) (execClear s) := by
  simp only [execClear, mapNext, State.overlay, h, id]

theorem execDraw_overlay (x y : Reg) (n : Nibble) (s : State) {o : Overlay} (hmem : o.mem = id) (hdirty : o.dirty = id) :
    execDraw x y n (s.overlay o) = mapNext (·.overlay o) (execDraw x y n s) := by
  rw [execDraw, blitSprite_overlay s hmem]
  simp only [execDraw, mapNext, State.overlay, hdirty, id]
  rfl

theorem execWaitForKey_overlay (x : Reg) (s : State) {o : Overlay} (h : o.mode = id) :
    execWaitForKey x (s.overlay o) = mapNext (·.overlay o) (execWaitForKey x s) := by
  simp only [execWaitForKey, mapNext, State.overlay, h, id]

/-- An instruction does the same under a change of parts that it neither reads nor writes, and keeps the change. -/
theorem exec_overlay {i : Instr} {o : Overlay} (h : o.spares i) (s : State) :
    exec i (s.overlay o) = mapNext (·.overlay o) (exec i s) := by
  cases i with
  | clear => exact execClear_overlay s h
  | draw x y n => exact execDraw_overlay x y n s h.1 h.2
  | storeBcd x =>
    simp only [exec, execStoreBcd, State.memWrite_overlay _ h]
    rfl
  | storeRegs x => exact congrArg Host.Outcome.next (s.storeBlock_overlay h _)
  | loadRegs x => exact congrArg Host.Outcome.next (s.loadBlock_overlay h _)
  | waitForKey x => exact execWaitForKey_overlay x s h
  | skipIfKey x =>
    simp only [exec, execSkipIfKey, State.keyPressed_overlay s h, State.skipIf_overlay]
    rfl
  | skipIfNotKey x =>
    simp only [exec, execSkipIfNotKey, State.keyPressed_overlay s h, State.skipIf_overlay]
    rfl
  | ret => exact execRet_overlay s o
  | call nnn => exact execCall_overlay nnn s o
  | sys | reserved => exact reservedWord_overlay _ s o
  | skipIfEq | skipIfNeq | skipIfRegEq | skipIfRegNeq => exact congrArg Host.Outcome.next (s.skipIf_overlay o _)
  | add | sub | shr | subn | shl => exact congrArg Host.Outcome.next (s.writeResultAndFlag_overlay o _ _ _)
  | _ => rfl

/-! ## The readers of memory (R30) -/

theorem exec_withMem {i : Instr} (hdraw : ∀ x y n, i ≠ .draw x y n) (hbcd : ∀ x, i ≠ .storeBcd x)
    (hstore : ∀ x, i ≠ .storeRegs x) (hload : ∀ x, i ≠ .loadRegs x) (s : State) (m : Memory) :
    exec i { s with mem := m } = mapNext (fun t => { t with mem := m }) (exec i s) := by
  refine exec_overlay (o := ⟨fun _ => m, id, id, id⟩) ?_ s
  cases i with
  | draw x y n => exact absurd rfl (hdraw x y n)
  | storeBcd x => exact absurd rfl (hbcd x)
  | storeRegs x => exact absurd rfl (hstore x)
  | loadRegs x => exact absurd rfl (hload x)
  | clear | waitForKey | skipIfKey | skipIfNotKey => rfl
  | _ => trivial

/-- Settles O10: every other instruction does the same on another memory. -/
theorem onlyFourOperationsReachMemory : Obligations.OnlyFourOperationsReachMemory :=
  fun _ s m hdraw hbcd hstore hload => exec_withMem hdraw hbcd hstore hload s m

/-! ## The readers of `frame_dirty`, the mode and the key level (R20, R22, R116) -/

theorem exec_withFrameDirty {i : Instr} (hclear : i ≠ .clear) (hdraw : ∀ x y n, i ≠ .draw x y n) (s : State) (d : Bool) :
    exec i { s with frameDirty := d } = mapNext (fun t => { t with frameDirty := d }) (exec i s) := by
  refine exec_overlay (o := ⟨id, fun _ => d, id, id⟩) ?_ s
  cases i with
  | clear => exact absurd rfl hclear
  | draw x y n => exact absurd rfl (hdraw x y n)
  | storeBcd | storeRegs | loadRegs | waitForKey | skipIfKey | skipIfNotKey => rfl
  | _ => trivial

theorem exec_withMode {i : Instr} (hwait : ∀ x, i ≠ .waitForKey x) (s : State) (m : Mode) :
    exec i { s with mode := m } = mapNext (fun t => { t with mode := m }) (exec i s) := by
  refine exec_overlay (o := ⟨id, id, fun _ => m, id⟩) ?_ s
  cases i with
  | waitForKey x => exact absurd rfl (hwait x)
  | draw => exact ⟨rfl, rfl⟩
  | clear | storeBcd | storeRegs | loadRegs | skipIfKey | skipIfNotKey => rfl
  | _ => trivial

theorem exec_withKeysIn {i : Instr} (hkey : ∀ x, i ≠ .skipIfKey x) (hnotKey : ∀ x, i ≠ .skipIfNotKey x) (s : State)
    (k : BitVec 16) : exec i { s with keysIn := k } = mapNext (fun t => { t with keysIn := k }) (exec i s) := by
  refine exec_overlay (o := ⟨id, id, id, fun _ => k⟩) ?_ s
  cases i with
  | skipIfKey x => exact absurd rfl (hkey x)
  | skipIfNotKey x => exact absurd rfl (hnotKey x)
  | draw => exact ⟨rfl, rfl⟩
  | clear | storeBcd | storeRegs | loadRegs | waitForKey => rfl
  | _ => trivial

theorem execClear_withFrameDirty (s : State) (d : Bool) : execClear { s with frameDirty := d } = execClear s := rfl

/-- `draw` puts `frame_dirty` whatever it was, and the sprite loop does not read it. -/
theorem execDraw_withFrameDirty (x y : Reg) (n : Nibble) (s : State) (d : Bool) :
    execDraw x y n { s with frameDirty := d } = execDraw x y n s := by
  have hblit : ∀ y0 x0, blitSprite { s with frameDirty := d } y0 x0 n.toNat = blitSprite s y0 x0 n.toNat :=
    fun y0 x0 => blitSprite_overlay s (o := ⟨id, fun _ => d, id, id⟩) rfl y0 x0 n.toNat
  rw [execDraw, hblit]
  rfl

/-- Settles O15: each part in turn, and the writers of `frame_dirty` and the mode put a value that does not depend on the
old one. -/
theorem dirtyFlagModeAndKeysAreNotReadElsewhere : Obligations.DirtyFlagModeAndKeysAreNotReadElsewhere :=
  ⟨fun _ s d hclear hdraw => exec_withFrameDirty hclear hdraw s d, execClear_withFrameDirty, execDraw_withFrameDirty,
    fun _ s m hwait => exec_withMode hwait s m, fun _ _ _ => rfl,
    fun _ s k hkey hnotKey => exec_withKeysIn hkey hnotKey s k⟩

end Sys2Proof.Machine
end

section
/-! PROOFS. 10_state.md R13, R18, R22, R25 and R28: the invariant holds after reset and every step keeps it; 00_scope.md
section 4: no step changes the open parameters. -/

namespace Sys2Proof.Machine

/-! ## The invariant after a reset or a load -/

theorem resetMode_idle_iff (image : Option (List Byte)) : resetMode image = .idle ↔ image = none := by
  cases image <;> simp [resetMode]

theorem State.resetOp_inv {s : State} (h : imageFits s.image = true) : StateInv s.resetOp where
  pc_below := s.resetOp_pc_below
  mem_wf := resetMemory_wf s.cfg s.image
  image_fits := h
  idle_iff := resetMode_idle_iff s.image

theorem imageFits_take (image : List Byte) : imageFits (some (image.take programMax)) = true :=
  decide_eq_true (List.length_take_le _ _)

theorem State.loadOp_inv (s : State) (image : List Byte) : StateInv (s.loadOp image) :=
  State.resetOp_inv (imageFits_take image)

/-- Settles O57: the four relations, each of a constant. -/
theorem resetMeetsTheInvariant : Obligations.ResetMeetsTheInvariant where
  pc_below := by decide
  mem_wf := rfl
  image_fits := rfl
  idle_iff := iff_of_true rfl rfl

/-! ## The invariant over a tick -/

/-- The timers are no part of the invariant. -/
theorem StateInv.timerStep {s : State} (h : StateInv s) : StateInv s.timerStep :=
  ⟨h.pc_below, h.mem_wf, h.image_fits, h.idle_iff⟩

/-- Outside `Idle` an image is recorded, so the invariant asks of the mode only that it stays so. -/
theorem StateInv.of_not_idle {s t : State} (h : StateInv s) (hpc : t.pc.toNat < memSize) (hmem : Memory.wf t.mem = true)
    (himage : t.image = s.image) (hs : s.mode ≠ .idle) (ht : t.mode ≠ .idle) : StateInv t where
  pc_below := hpc
  mem_wf := hmem
  image_fits := himage ▸ h.image_fits
  idle_iff := iff_of_false ht (himage ▸ fun hnone => hs (h.idle_iff.2 hnone))

theorem exec_keeps_inv {i : Instr} {s t : State} (hs : StateInv s) (hm : s.mode ≠ .idle) (h : exec i s = .next t) :
    StateInv t :=
  hs.of_not_idle (exec_pc_below hs.pc_below h) (exec_mem_wf hs.mem_wf h) (exec_cfg_image h).2 hm (exec_mode_ne_idle hm h)

theorem StateInv.advancePc {s : State} (h : StateInv s) : StateInv s.advancePc :=
  ⟨s.advancePc_below, h.mem_wf, h.image_fits, h.idle_iff⟩

theorem tick_keeps_inv {s t : State} (hs : StateInv s) (h : tick s = .next t) : StateInv t := by
  cases hm : s.mode with
  | idle =>
    rw [tick_idle hm] at h
    cases h
    exact hs
  | awaitingKey x =>
    rw [tick_awaiting hm] at h
    cases h
    rcases tickAwaiting_cases s with ht | ht <;> rw [ht]
    · exact hs
    · exact hs.timerStep
  | running =>
    rw [tick_running hm] at h
    obtain ⟨u, hu, rfl⟩ := finishTick_next h
    have hne : s.advancePc.mode ≠ .idle := by simp [hm]
    exact (exec_keeps_inv hs.advancePc hne hu).timerStep

/-! ## The invariant over a host command, and over a step -/

/-- A key press that ends a wait leaves the engine running, with the image it ran. -/
theorem keyPress_keeps_inv {s : State} (hs : StateInv s) (k : Key) : StateInv (keyPress k s) := by
  rcases keyPress_cases k s with hk | ⟨x, hm, hk⟩ <;> rw [hk]
  · exact hs
  · exact hs.of_not_idle hs.pc_below hs.mem_wf rfl (by simp [hm]) (by simp)

theorem hostCommand_keeps_inv {c : HostCommand} {s t : State} (hs : StateInv s) (h : hostCommand c s = .next t) :
    StateInv t := by
  cases c with
  | tick => exact tick_keeps_inv hs h
  | load image => cases h; exact s.loadOp_inv image
  | reset => cases h; exact State.resetOp_inv hs.image_fits
  | keyPress k => cases h; exact keyPress_keeps_inv hs k
  | loadFailed => cases h; exact hs
  | frameAck | keys => cases h; exact ⟨hs.pc_below, hs.mem_wf, hs.image_fits, hs.idle_iff⟩

theorem StateInv.withHostQueue {s : State} (h : StateInv s) (q : List HostCommand) :
    StateInv { s with hostQueue := q } :=
  ⟨h.pc_below, h.mem_wf, h.image_fits, h.idle_iff⟩

/-- Settles O56: a step is a tick or a host command, and each keeps the invariant. -/
theorem everyStepKeepsTheInvariant : Obligations.EveryStepKeepsTheInvariant := by
  intro s t hs h
  rcases step_cases s with ⟨q, -, hq⟩ | ⟨c, q, -, -, hq⟩ <;> rw [hq] at h
  · exact tick_keeps_inv (hs.withHostQueue q) h
  · exact hostCommand_keeps_inv (hs.withHostQueue q) h

/-! ## The open parameters -/

theorem tickAwaiting_cfg (s : State) : (tickAwaiting s).cfg = s.cfg := by
  rcases tickAwaiting_cases s with h | h <;> rw [h]
  exact s.timerStep_cfg

theorem tick_keeps_cfg {s t : State} (h : tick s = .next t) : t.cfg = s.cfg := by
  cases hm : s.mode with
  | idle =>
    rw [tick_idle hm] at h
    cases h
    rfl
  | awaitingKey x =>
    rw [tick_awaiting hm] at h
    cases h
    exact tickAwaiting_cfg s
  | running =>
    rw [tick_running hm] at h
    obtain ⟨u, hu, rfl⟩ := finishTick_next h
    exact (exec_cfg_image hu).1

theorem keyPress_cfg (k : Key) (s : State) : (keyPress k s).cfg = s.cfg := by
  rcases keyPress_cases k s with hk | ⟨x, -, hk⟩
  · rw [hk]
  · rw [hk]; rfl

theorem hostCommand_keeps_cfg {c : HostCommand} {s t : State} (h : hostCommand c s = .next t) : t.cfg = s.cfg := by
  cases c with
  | tick => exact tick_keeps_cfg h
  | keyPress k => cases h; exact keyPress_cfg k s
  | load | loadFailed | reset | frameAck | keys => cases h; rfl

/-- Settles O58: a step is a tick or a host command, and neither writes the configuration. -/
theorem stepsKeepTheConfiguration : Obligations.StepsKeepTheConfiguration := by
  intro s t h
  rcases step_cases s with ⟨q, -, hq⟩ | ⟨c, q, -, -, hq⟩ <;> rw [hq] at h
  · exact tick_keeps_cfg (s := { s with hostQueue := q }) h
  · exact hostCommand_keeps_cfg (s := { s with hostQueue := q }) h

end Sys2Proof.Machine
end

section
/-! PROOFS. 20_memory.md: byte writes (R33, R38), the fetched word (R34) and self-modifying code (R41). -/

namespace Sys2Proof.Machine

/-- Settles O6: reading after a write in a memory of canonical form, which a write keeps. -/
theorem byteWriteChangesThatByteAlone : Obligations.ByteWriteChangesThatByteAlone := fun _ a a' b hm =>
  ⟨Memory.read_write hm a a' b, State.memWrite_wf hm a b⟩

/-- Settles O7: the word of two bytes, the second read at PC + 1 modulo 4096. -/
theorem fetchIsMostSignificantByteFirst : Obligations.FetchIsMostSignificantByteFirst := by
  intro s
  have hwrap : s.memRead ((s.pc.toNat + 1) % 0x1000) = s.memRead (s.pc.toNat + 1) := Memory.read_mod s.mem _
  rw [hwrap]
  exact wordOfBytes_toNat ..

theorem State.memRead_congr (s : State) {a a' : Nat} (h : a % memSize = a' % memSize) : s.memRead a = s.memRead a' :=
  congrArg (Memory.get s.mem) h

theorem exec_storeRegs (x : Reg) (s : State) : exec (.storeRegs x) s = .next (s.storeBlock (x.val + 1)) := rfl

/-- The byte at `I + r` after `store-regs` of the registers up to VX is register `r`. -/
theorem State.memRead_storeBlock_reg {s : State} (hm : Memory.wf s.mem = true) {x r : Reg} (hr : r ≤ x) :
    (s.storeBlock (x.val + 1)).memRead (s.indexed r.val) = s.reg r := by
  have hlt : r.val < x.val + 1 := Nat.lt_succ_of_le hr
  rw [State.memRead_storeBlock hm x.isLt hlt, blockReg_eq r.isLt]

/-- Settles O8: the first byte of the fetch is the byte at PC, which is where register `r` was stored. -/
theorem storedByteIsSeenByTheNextFetch : Obligations.StoredByteIsSeenByTheNextFetch := by
  intro s t x r hm hexec hr hpc
  rw [exec_storeRegs] at hexec
  cases hexec
  rw [State.fetchWord, highByte_wordOfBytes, State.storeBlock_pc, State.memRead_congr _ hpc]
  exact State.memRead_storeBlock_reg hm hr

end Sys2Proof.Machine
end

section
/-! PROOFS. 40_display.md: `draw` (R56 to R60) and a sprite drawn twice (R61). -/

namespace Sys2Proof.Machine

/-! ## `draw` as a sprite loop and its flag -/

/-- `s` with the outcome of a sprite loop: its framebuffer, VF its collision flag, and `frame_dirty` set. -/
def State.putBlit (s : State) (b : Blit) : State := { s.setReg regF (flagByte b.hit) with fb := b.fb, frameDirty := true }

theorem exec_draw (x y : Reg) (n : Nibble) (s : State) :
    exec (.draw x y n) s = .next (s.putBlit (blitSprite s ((s.reg y).toNat % 32) ((s.reg x).toNat % 64) n.toNat)) := rfl

theorem State.reg_putBlit_flag (s : State) (b : Blit) : (s.putBlit b).reg regF = flagByte b.hit :=
  s.reg_setReg_same regF (flagByte b.hit)

theorem flagByte_eq_one_iff (f : Bool) : flagByte f = 0x01 ↔ f = true := by cases f <;> decide

theorem flagByte_eq_zero_iff (f : Bool) : flagByte f = 0x00 ↔ f = false := by cases f <;> decide

theorem flagByte_cases (f : Bool) : flagByte f = 0x00 ∨ flagByte f = 0x01 := by cases f <;> decide

theorem blitSprite_hit_iff (s : State) (y0 x0 n : Nat) : (blitSprite s y0 x0 n).hit = true ↔ collides s y0 x0 n :=
  (blitSprite_draws s y0 x0 n).2

/-- Settles O17: the sprite loop draws exactly the sprite's pixels and tells whether one was lit, and the rest is a
register write. -/
theorem drawXorsTheSpritePixelByPixel : Obligations.DrawXorsTheSpritePixelByPixel := by
  refine fun x y n s => ⟨_, exec_draw x y n s, (blitSprite_draws s _ _ _).1, fun hcollides => ?_, fun hclear => ?_, rfl,
    sameRegsBut_setReg s regF _, ⟨rfl, rfl, rfl⟩, fun _ => rfl, ⟨rfl, rfl⟩, ⟨rfl, rfl⟩, ⟨rfl, rfl⟩, rfl, rfl, rfl, rfl⟩
  · rw [State.reg_putBlit_flag, flagByte_eq_one_iff]
    exact (blitSprite_hit_iff ..).2 hcollides
  · rw [State.reg_putBlit_flag, flagByte_eq_zero_iff]
    exact Bool.eq_false_iff.2 fun hhit => hclear ((blitSprite_hit_iff ..).1 hhit)

/-! ## One sprite drawn twice (R61) -/

/-- Drawing the same pixels again takes them off: the XOR of two equal values is no change. -/
theorem Draws.twice_pixels {fb : Framebuffer} {p : Nat → Nat → Bool} {b b' : Blit} (h : Draws fb p b)
    (h' : Draws b.fb p b') {py px : Nat} (hy : py < 32) (hx : px < 64) : pixelAt b'.fb py px = pixelAt fb py px := by
  rw [h'.1 py px hy hx, h.1 py px hy hx, Bool.xor_assoc, Bool.xor_self, Bool.xor_false]

/-- A set pixel is lit after the first drawing exactly when it was unlit before. -/
theorem Draws.lit_iff {fb : Framebuffer} {p : Nat → Nat → Bool} {b : Blit} (h : Draws fb p b) {py px : Nat}
    (hy : py < 32) (hx : px < 64) (hp : p py px = true) : pixelAt b.fb py px = true ↔ pixelAt fb py px = false := by
  rw [h.1 py px hy hx, hp, Bool.xor_true, Bool.not_eq_true']

theorem Draws.twice_hit {fb : Framebuffer} {p : Nat → Nat → Bool} {b b' : Blit} (h : Draws fb p b)
    (h' : Draws b.fb p b') :
    b'.hit = true ↔ ∃ py px, py < 32 ∧ px < 64 ∧ p py px = true ∧ pixelAt fb py px = false := by
  rw [h'.2]
  constructor
  · rintro ⟨py, px, hy, hx, hp, hlit⟩
    exact ⟨py, px, hy, hx, hp, (h.lit_iff hy hx hp).1 hlit⟩
  · rintro ⟨py, px, hy, hx, hp, hunlit⟩
    exact ⟨py, px, hy, hx, hp, (h.lit_iff hy hx hp).2 hunlit⟩

/-- Settles O18: neither memory nor I changes, so the second drawing is of the same pixels. -/
theorem drawTwiceRestoresTheFramebuffer : Obligations.DrawTwiceRestoresTheFramebuffer := by
  intro x y x' y' n s t u ht hu hcolumn hrow
  rw [exec_draw] at ht hu
  rw [hcolumn, hrow] at hu
  cases ht
  cases hu
  generalize (s.reg y).toNat % 32 = y0, (s.reg x).toNat % 64 = x0
  have hfirst := blitSprite_draws s y0 x0 n.toNat
  have hsecond := blitSprite_draws (s.putBlit (blitSprite s y0 x0 n.toNat)) y0 x0 n.toNat
  refine ⟨fun py px hy hx => hfirst.twice_pixels hsecond hy hx, ?_, ?_⟩ <;> rw [State.reg_putBlit_flag]
  · exact flagByte_cases _
  · rw [flagByte_eq_one_iff]
    exact hfirst.twice_hit hsecond

end Sys2Proof.Machine
end

section
/-! PROOFS. 42_alu.md: the operations on two registers (R80 to R88), `add` undone by `sub` (vector S2), and `random`
(R89). -/

namespace Sys2Proof.Machine

/-! ## Move and logic (R80 to R83) -/

/-- Settles O28: each operation is one register write. -/
theorem moveAndLogicWriteTheirRegister : Obligations.MoveAndLogicWriteTheirRegister := fun x _ s =>
  ⟨⟨_, rfl, wrote_setReg s x _⟩, ⟨_, rfl, wrote_setReg s x _⟩, ⟨_, rfl, wrote_setReg s x _⟩, ⟨_, rfl, wrote_setReg s x _⟩⟩

/-! ## The results and flags as numbers (R74, R75) -/

/-- A result and its flag, each given under another name. -/
theorem wroteWithFlag_of_eq {b c f : Byte} {g : Bool} (s : State) (x : Reg) (hb : b = c) (hf : flagByte g = f) :
    wroteWithFlag s (s.writeResultAndFlag x b g) x c f :=
  hb ▸ hf ▸ wroteWithFlag_writeResultAndFlag s x b g

theorem flagByte_decide (p : Prop) [Decidable p] : flagByte (decide p) = if p then 0x01 else 0x00 := by
  unfold flagByte
  split_ifs <;> simp_all

theorem byte_sub_eq_ofNat_mod (a b : Byte) : a - b = BitVec.ofNat 8 ((256 + a.toNat - b.toNat) % 256) := by
  apply BitVec.eq_of_toNat_eq
  have hb := b.isLt
  rw [BitVec.toNat_sub, BitVec.toNat_ofNat, Nat.mod_mod]
  congr 1
  omega

theorem byte_shiftRight_one (a : Byte) : a >>> 1 = BitVec.ofNat 8 (a.toNat / 2) := by
  apply BitVec.eq_of_toNat_eq
  rw [BitVec.toNat_ushiftRight, byte_ofNat_toNat (by have := a.isLt; omega), Nat.shiftRight_eq_div_pow]

theorem byte_shiftLeft_one (a : Byte) : a <<< 1 = BitVec.ofNat 8 (2 * a.toNat % 256) := by
  apply BitVec.eq_of_toNat_eq
  rw [BitVec.toNat_shiftLeft, byte_ofNat_toNat (Nat.mod_lt _ (by decide)), Nat.shiftLeft_eq, Nat.mul_comm]

theorem flagByte_eq_ofNat {f : Bool} {n : Nat} (h : f = decide (n = 1)) (hn : n < 2) : flagByte f = BitVec.ofNat 8 n := by
  subst h
  interval_cases n <;> rfl

theorem flagByte_shiftedOutRight (a : Byte) : flagByte (shiftedOutRight a) = BitVec.ofNat 8 (a.toNat % 2) :=
  flagByte_eq_ofNat (by rw [shiftedOutRight, BitVec.getLsbD, Nat.testBit_zero]) (Nat.mod_lt _ Nat.two_pos)

theorem flagByte_shiftedOutLeft (a : Byte) : flagByte (shiftedOutLeft a) = BitVec.ofNat 8 (a.toNat / 128) := by
  have hlt : a.toNat / 128 < 2 := by have := a.isLt; omega
  refine flagByte_eq_ofNat ?_ hlt
  rw [shiftedOutLeft, BitVec.getLsbD, Nat.testBit_eq_decide_div_mod_eq]
  show decide (a.toNat / 128 % 2 = 1) = _
  rw [Nat.mod_eq_of_lt hlt]

/-! ## Addition, subtraction and shifts (R84 to R88) -/

/-- Settles O29: one result and one flag, the byte sum and the carry of the exact sum. -/
theorem addWritesSumAndCarry : Obligations.AddWritesSumAndCarry := fun x _ s =>
  ⟨_, rfl, wroteWithFlag_of_eq s x (byte_add_eq_ofNat_mod ..) (flagByte_decide _)⟩

/-- Settles O30: one result and one flag each, the byte difference and the comparison of its operands. -/
theorem subtractionsWriteDifferenceAndNoBorrow : Obligations.SubtractionsWriteDifferenceAndNoBorrow := fun x _ s =>
  ⟨⟨_, rfl, wroteWithFlag_of_eq s x (byte_sub_eq_ofNat_mod ..) (flagByte_decide _)⟩,
    ⟨_, rfl, wroteWithFlag_of_eq s x (byte_sub_eq_ofNat_mod ..) (flagByte_decide _)⟩⟩

/-- Settles O31: one result and one flag each, the shifted byte and the bit at the end it is shifted out of. -/
theorem shiftsWriteResultAndShiftedOutBit : Obligations.ShiftsWriteResultAndShiftedOutBit := fun x _ s =>
  ⟨⟨_, rfl, wroteWithFlag_of_eq s x (byte_shiftRight_one _) (flagByte_shiftedOutRight _)⟩,
    ⟨_, rfl, wroteWithFlag_of_eq s x (byte_shiftLeft_one _) (flagByte_shiftedOutLeft _)⟩⟩

/-! ## `add` and then `sub` (vector S2) -/

theorem State.writeResultAndFlag_result (s : State) {x : Reg} (hx : x ≠ regF) (b : Byte) (f : Bool) :
    (s.writeResultAndFlag x b f).reg x = b :=
  ((wroteWithFlag_writeResultAndFlag s x b f).1 hx).1

theorem State.writeResultAndFlag_flag (s : State) {x : Reg} (hx : x ≠ regF) (b : Byte) (f : Bool) :
    (s.writeResultAndFlag x b f).reg regF = flagByte f :=
  ((wroteWithFlag_writeResultAndFlag s x b f).1 hx).2

theorem exec_add (x y : Reg) (s : State) :
    exec (.add x y) s = .next (s.writeResultAndFlag x (s.reg x + s.reg y) (carryOut (s.reg x) (s.reg y))) := rfl

theorem exec_sub (x y : Reg) (s : State) :
    exec (.sub x y) s = .next (s.writeResultAndFlag x (s.reg x - s.reg y) (noBorrow (s.reg x) (s.reg y))) := rfl

/-- The byte sum is at least a summand exactly when the addition did not carry. -/
theorem noBorrow_add (a b : Byte) : noBorrow (a + b) b = !carryOut a b := by
  have ha := a.isLt
  have hb := b.isLt
  rw [noBorrow, carryOut, ← decide_not, decide_eq_decide, BitVec.toNat_add]
  omega

/-- Settles O32: with three different registers `sub` finds the sum in VX and the old VY, and takes VY off again. -/
theorem addThenSubRestoresTheRegister : Obligations.AddThenSubRestoresTheRegister := by
  intro x y s t u hx hy hxy hadd hsub
  rw [exec_add] at hadd
  rw [exec_sub] at hsub
  cases hadd
  cases hsub
  rw [State.writeResultAndFlag_result s hx, State.writeResultAndFlag_other s _ _ hxy.symm hy, BitVec.add_sub_cancel,
    noBorrow_add]
  refine ⟨State.writeResultAndFlag_result _ hx _ _, ?_, fun r hr => ?_⟩
  · rw [State.writeResultAndFlag_flag _ hx, State.writeResultAndFlag_flag _ hx, flagByte_eq_one_iff, flagByte_eq_zero_iff,
      Bool.not_eq_true']
  · have hrF : r ≠ regF := List.ne_of_not_mem_cons hr
    by_cases hrx : r = x
    · rw [hrx, State.writeResultAndFlag_result _ hx]
    · rw [State.writeResultAndFlag_other _ _ _ hrx hrF, State.writeResultAndFlag_other _ _ _ hrx hrF]

/-! ## `random` (R89) -/

theorem exec_random (x : Reg) (nn : Byte) (s : State) :
    exec (.random x nn) s = .next (s.requestRandom.setReg x (s.nextRandom &&& nn)) := rfl

theorem State.nextRandom_of_ready {s : State} {b : Byte} {rest : List Byte} (h : s.randIn = b :: rest) :
    s.nextRandom = b := by
  rw [State.nextRandom, h, List.headD_cons]

/-- Settles O33: one request to the port and one register write. -/
theorem randomMasksOneRequestedByte : Obligations.RandomMasksOneRequestedByte := fun x nn s =>
  ⟨decode_encode (i := .random x nn) rfl,
    ⟨_, exec_random x nn s, State.reg_setReg_same .., rfl, rfl, sameRegsBut_setReg s.requestRandom x _, ⟨rfl, rfl, rfl⟩,
      fun _ => rfl, ⟨rfl, rfl⟩, ⟨rfl, rfl⟩, ⟨rfl, rfl⟩, rfl, rfl, rfl, rfl⟩,
    fun _ _ => State.nextRandom_of_ready⟩

end Sys2Proof.Machine
end

section
/-! PROOFS. 43_index_memory.md: `add-index` and `sprite-addr` (R91, R92), and the register blocks of `store-regs` and
`load-regs` (R94 to R96). -/

namespace Sys2Proof.Machine

/-! ## Index arithmetic (R91, R92) -/

/-- A byte added to a word wraps modulo 65536. -/
theorem word_add_byte_eq_ofNat_mod (w : Word) (b : Byte) :
    w + b.setWidth 16 = BitVec.ofNat 16 ((w.toNat + b.toNat) % 65536) := by
  apply BitVec.eq_of_toNat_eq
  have hb : (b.setWidth 16).toNat = b.toNat := BitVec.toNat_setWidth_of_le (by decide)
  rw [BitVec.toNat_add, hb, BitVec.toNat_ofNat, Nat.mod_mod]

theorem word_ofNat_mod (n : Nat) : BitVec.ofNat 16 (n % 65536) = BitVec.ofNat 16 n := by
  apply BitVec.eq_of_toNat_eq
  rw [BitVec.toNat_ofNat, BitVec.toNat_ofNat, Nat.mod_mod]

theorem exec_addIndex (x : Reg) (s : State) :
    exec (.addIndex x) s = .next { s with i := s.i + (s.reg x).setWidth 16 } := rfl

theorem exec_spriteAddr (x : Reg) (s : State) :
    exec (.spriteAddr x) s =
      .next { s with i := BitVec.ofNat 16 (s.cfg.fontBase.toNat + 5 * ((s.reg x).toNat % 16)) } := rfl

/-- Settles O35: each operation writes I alone, and a word holds its value modulo 65536. -/
theorem indexArithmeticWritesIAlone : Obligations.IndexArithmeticWritesIAlone := fun x s =>
  ⟨by rw [exec_addIndex, word_add_byte_eq_ofNat_mod], by rw [exec_spriteAddr, word_ofNat_mod]⟩

/-! ## The register blocks (R94 to R96) -/

/-- A byte at none of the addresses `I` to `I + x` is not stored to. -/
theorem State.memRead_storeBlock_outside (s : State) {x : Reg} {a : Nat}
    (h : ∀ r : Reg, r ≤ x → a % memSize ≠ s.indexed r.val % memSize) :
    (s.storeBlock (x.val + 1)).memRead a = s.memRead a :=
  s.memRead_storeBlock_other _ fun k hk => h ⟨k, Nat.lt_of_lt_of_le hk x.isLt⟩ (Nat.le_of_lt_succ hk)

theorem storeBlock_frame (s : State) (n : Nat) :
    sameRegsBut [] s (s.storeBlock n) ∧ sameControl s (s.storeBlock n) ∧ sameStack s (s.storeBlock n)
      ∧ sameDisplay s (s.storeBlock n) ∧ sameTimers s (s.storeBlock n) ∧ sameRandom s (s.storeBlock n)
      ∧ sameOutside s (s.storeBlock n) := by
  refine ⟨sameRegsBut_of_v (s.storeBlock_v n) [], ?_⟩
  simp [sameControl, sameStack, sameDisplay, sameTimers, sameRandom, sameOutside]

/-- Settles O37: the block's bytes are read back, and the block is the one part of the state that is written. -/
theorem storeRegsWritesTheRegisterBlock : Obligations.StoreRegsWritesTheRegisterBlock := fun x s hm =>
  ⟨_, exec_storeRegs x s, fun _ => State.memRead_storeBlock_reg hm,
    fun _ => s.memRead_storeBlock_outside, storeBlock_frame s _⟩

theorem exec_loadRegs (x : Reg) (s : State) : exec (.loadRegs x) s = .next (s.loadBlock (x.val + 1)) := rfl

theorem State.reg_loadBlock_le (s : State) {x r : Reg} (hr : r ≤ x) :
    (s.loadBlock (x.val + 1)).reg r = s.memRead (s.indexed r.val) := by
  rw [State.reg_loadBlock s x.isLt, if_pos (Nat.lt_succ_of_le hr)]

theorem State.reg_loadBlock_above (s : State) {x r : Reg} (hr : x < r) : (s.loadBlock (x.val + 1)).reg r = s.reg r := by
  rw [State.reg_loadBlock s x.isLt, if_neg (Nat.not_lt.2 hr)]

theorem sameButRegs_loadBlock (s : State) (n : Nat) : sameButRegs s (s.loadBlock n) := by
  have hmem : sameMemory s (s.loadBlock n) := State.memRead_eq_of_mem (s.loadBlock_mem n)
  simp [sameButRegs, hmem, sameControl, sameStack, sameDisplay, sameTimers, sameRandom, sameOutside]

/-- Settles O38: the block's registers take their bytes, and the registers are the one part of the state that is
written. -/
theorem loadRegsReadsTheRegisterBlock : Obligations.LoadRegsReadsTheRegisterBlock := fun x s =>
  ⟨_, exec_loadRegs x s, fun _ => s.reg_loadBlock_le, fun _ => s.reg_loadBlock_above, sameButRegs_loadBlock s _⟩

/-- Settles O39: with the same I the load reads where the store wrote. -/
theorem loadRegsAfterStoreRegsRestoresThem : Obligations.LoadRegsAfterStoreRegsRestoresThem := by
  intro x s t u v hm hstore hi hbytes hload r hr
  rw [exec_storeRegs] at hstore
  rw [exec_loadRegs] at hload
  cases hstore
  cases hload
  have hindexed : u.indexed r.val = s.indexed r.val := by
    rw [State.indexed, hi, State.storeBlock_i, State.indexed]
  calc (u.loadBlock (x.val + 1)).reg r
      = u.memRead (s.indexed r.val) := by rw [State.reg_loadBlock_le u hr, hindexed]
    _ = (s.storeBlock (x.val + 1)).memRead (s.indexed r.val) := hbytes r hr
    _ = s.reg r := State.memRead_storeBlock_reg hm hr

end Sys2Proof.Machine
end

section
/-! PROOFS. 44_timers_keys.md: the key skips (R97 to R99) and the wait for a key (R100). -/

namespace Sys2Proof.Machine

/-! ## The key skips (R97 to R99) -/

theorem State.keyPressed_lowNibble {s : State} (h : s.cfg.keyIndexPolicy = .lowNibble) (x : Reg) :
    s.keyPressed x = s.keysIn.getLsbD ((s.reg x).toNat % 16) := by
  rw [State.keyPressed, h]

/-- Under `never_pressed` a value above 0x0F names no key. -/
theorem State.keyPressed_neverPressed {s : State} (h : s.cfg.keyIndexPolicy = .neverPressed) (x : Reg) :
    s.keyPressed x = if (s.reg x).toNat > 0x0F then false else s.keysIn.getLsbD (s.reg x).toNat := by
  simp only [State.keyPressed, h]
  split_ifs with habove
  · rw [decide_eq_false (Nat.not_le.2 habove), Bool.false_and]
  · rw [decide_eq_true (Nat.not_lt.1 habove), Bool.true_and]

theorem exec_skipIfKey (x : Reg) (s : State) : exec (.skipIfKey x) s = .next (s.skipIf (s.keyPressed x)) := rfl

theorem exec_skipIfNotKey (x : Reg) (s : State) : exec (.skipIfNotKey x) s = .next (s.skipIf (!s.keyPressed x)) := rfl

/-- Settles O40: by cases on the policy the level is the model's, which one skip takes as it is and the other negated. -/
theorem keySkipsFollowTheKeyLevel : Obligations.KeySkipsFollowTheKeyLevel := by
  intro x s pressed hlow hnever
  have hpressed : s.keyPressed x = pressed := by
    cases hpol : s.cfg.keyIndexPolicy with
    | lowNibble => rw [State.keyPressed_lowNibble hpol, hlow hpol]
    | neverPressed => rw [State.keyPressed_neverPressed hpol, hnever hpol]
  rw [exec_skipIfKey, exec_skipIfNotKey, hpressed]
  refine ⟨fun htrue => ⟨?_, ?_⟩, fun hfalse => ⟨?_, ?_⟩⟩
  · rw [s.skipIf_of_true htrue]
  · rw [s.skipIf_of_false (by rw [htrue]; rfl)]
  · rw [s.skipIf_of_false hfalse]
  · rw [s.skipIf_of_true (by rw [hfalse]; rfl)]

/-! ## The wait (R100) -/

/-- Settles O41: the mode is the one field written. -/
theorem waitForKeyEntersTheWait : Obligations.WaitForKeyEntersTheWait := fun x _ =>
  ⟨decode_encode (i := .waitForKey x) rfl, rfl⟩

theorem keyPress_awaiting {s : State} {x : Reg} (h : s.mode = .awaitingKey x) (k : Key) :
    keyPress k s = { s.setReg x (BitVec.ofNat 8 k.val) with mode := .running } := by
  rw [keyPress, h]

theorem keyPress_of_not_awaiting {s : State} (h : ∀ x : Reg, s.mode ≠ .awaitingKey x) (k : Key) : keyPress k s = s := by
  rcases keyPress_cases k s with hk | ⟨x, hm, -⟩
  · exact hk
  · exact absurd hm (h x)

theorem step_keyPress {s : State} {k : Key} {q : List HostCommand} (h : s.hostQueue = .keyPress k :: q) :
    step s = .next (keyPress k { s with hostQueue := q }) := step_command h

/-- Settles O42: in a wait a key press is a register write and a mode write, and elsewhere nothing. -/
theorem keyPressEndsTheWait : Obligations.KeyPressEndsTheWait := by
  intro s k q hq
  refine ⟨fun x hm => ⟨_, step_keyPress hq, ?_⟩, fun hm => ?_⟩
  · rw [keyPress_awaiting (s := { s with hostQueue := q }) hm]
    have hreg : (BitVec.ofNat 8 k.val).toNat = k.val := byte_ofNat_toNat (by omega)
    refine ⟨(congrArg BitVec.toNat (s.reg_setReg_same x _)).trans hreg, rfl, sameRegsBut_setReg s x _, rfl, rfl,
      fun _ => rfl, ⟨rfl, rfl⟩, ⟨rfl, rfl⟩, ⟨rfl, rfl⟩, ⟨rfl, rfl⟩, rfl, rfl, rfl, rfl⟩
  · rw [step_keyPress hq, keyPress_of_not_awaiting (s := { s with hostQueue := q }) hm]

end Sys2Proof.Machine
end

section
/-! PROOFS. 30_encoding.md section 1 and 20_memory.md section 3: what a tick fetches and runs (R34, R42), and the one
refusal of a step (R73). -/

namespace Sys2Proof.Machine

/-! ## A tick in `Running` (R42) -/

theorem step_running {s : State} {q : List HostCommand} (hm : s.mode = .running) (hq : ticksNext s q) :
    step s = finishTick (exec (decode s.fetchWord) (State.advancePc { s with hostQueue := q })) :=
  (step_tick hq).trans (tick_running (s := { s with hostQueue := q }) hm)

/-- Settles O44: the bytes at PC and PC + 1 decode as the fetched word does, and the tick finishes what `exec` answers. -/
theorem stepRunsTheDecodedInstruction : Obligations.StepRunsTheDecodedInstruction := by
  intro s i q hm hq hbytes
  rw [decodeBytes_two] at hbytes
  have hi : decode s.fetchWord = i := by
    cases hbytes
    rfl
  refine ⟨hi ▸ decode_wellFormed s.fetchWord, fun t ht => ?_, fun r hr => ?_⟩ <;> rw [step_running hm hq, hi]
  · exact finishTick_of_next ht
  · exact congrArg finishTick hr

/-! ## A tick outside `Running` (R42, R111) -/

theorem countDown_eq_ofNat (b : Byte) : countDown b = BitVec.ofNat 8 (b.toNat - 1) := by
  have hb := b.isLt
  apply BitVec.eq_of_toNat_eq
  rw [countDown_toNat, byte_ofNat_toNat (by omega)]

theorem tickAwaiting_hold {s : State} (h : s.cfg.timersWhileWaiting = .hold) : tickAwaiting s = s := by
  rw [tickAwaiting, h]

theorem tickAwaiting_decrement {s : State} (h : s.cfg.timersWhileWaiting = .decrement) :
    tickAwaiting s = { s with dt := BitVec.ofNat 8 (s.dt.toNat - 1), st := BitVec.ofNat 8 (s.st.toNat - 1) } := by
  rw [tickAwaiting, h]
  simp only [State.timerStep, countDown_eq_ofNat]

/-- Settles O45: by the mode, and in a wait by the policy. -/
theorem ticksOutsideRunningRunNoInstruction : Obligations.TicksOutsideRunningRunNoInstruction := by
  intro s q hq
  rw [step_tick hq]
  refine ⟨fun hidle => tick_idle hidle, fun x hm => ?_⟩
  rw [tick_awaiting (s := { s with hostQueue := q }) hm]
  refine ⟨fun hhold => ?_, fun hdecrement => ?_⟩
  · rw [tickAwaiting_hold (s := { s with hostQueue := q }) hhold]
  · rw [tickAwaiting_decrement (s := { s with hostQueue := q }) hdecrement]

/-! ## A word placed at PC -/

theorem tableWord_of_word (w : Word) : tableWord 16 w.toNat = w := by
  rw [tableWord, Nat.mod_eq_of_lt w.isLt, BitVec.ofNat_toNat, BitVec.setWidth_eq]

/-- The second of the two bytes is written to another address, so the first is read back past it. -/
theorem State.fetchWord_placeWord {s : State} (hm : Memory.wf s.mem = true) (w : Word) : (s.placeWord w).fetchWord = w := by
  have hne : s.pc.toNat % memSize ≠ (s.pc.toNat + 1) % memSize := by unfold memSize; omega
  have hhigh : (s.placeWord w).memRead s.pc.toNat = highByte w :=
    (State.memRead_memWrite_other _ _ hne).trans (State.memRead_memWrite_same hm _ rfl)
  have hlow : (s.placeWord w).memRead (s.pc.toNat + 1) = lowByte w :=
    State.memRead_memWrite_same (State.memWrite_wf hm _ _) _ rfl
  calc (s.placeWord w).fetchWord
      = wordOfBytes ((s.placeWord w).memRead s.pc.toNat) ((s.placeWord w).memRead (s.pc.toNat + 1)) := rfl
    _ = w := by rw [hhigh, hlow, wordOfBytes_bytes]

/-- Settles O52: the placed state is in `Running` with a tick next, and fetches the placed word. -/
theorem placedWordIsTheNextInstruction : Obligations.PlacedWordIsTheNextInstruction := by
  intro s w hm
  rw [State.withFetchWord, tableWord_of_word, step_running rfl (.inr rfl), State.fetchWord_placeWord hm]

/-! ## The one refusal (R73) -/

theorem finishTick_refused {o : Host.Outcome State Fault Refusal} {r : Refusal} (h : finishTick o = .refused r) :
    o = .refused r := by
  cases o with
  | next u => cases h
  | fault f => cases f
  | refused r' => exact h

theorem tick_refused {s : State} {r : Refusal} (h : tick s = .refused r) :
    s.mode = .running ∧ exec (decode s.fetchWord) s.advancePc = .refused r := by
  cases hm : s.mode with
  | idle => rw [tick_idle hm] at h; cases h
  | awaitingKey x => rw [tick_awaiting hm] at h; cases h
  | running => rw [tick_running hm] at h; exact ⟨rfl, finishTick_refused h⟩

/-- Settles O54: a command other than a tick answers, a tick runs an instruction in `Running` alone, and of those only a
reserved word is refused. -/
theorem onlyAReservedWordIsRefused : Obligations.OnlyAReservedWordIsRefused := by
  intro s r h
  rcases step_cases s with ⟨q, hticks, hq⟩ | ⟨c, q, hc, -, hq⟩ <;> rw [hq] at h
  · obtain ⟨hm, hexec⟩ := tick_refused h
    obtain ⟨hpol, hr, hpriority⟩ := exec_refused hexec
    rw [encode_decode] at hr
    exact ⟨hpol, hm, ⟨q, hticks⟩, hr, hpriority⟩
  · obtain ⟨t, ht⟩ := hostCommand_answers_of_ne_tick hc { s with hostQueue := q }
    rw [ht] at h
    cases h

end Sys2Proof.Machine
end

section
/-! PROOFS. 60_exceptions.md sections 2, 5 and 6 and 70_reset_and_hazards.md section 1: reset and load (R115, R125, R127),
the other host commands (R107, R116, R119) and what leaves a wait or `Idle` (R123, R128). -/

namespace Sys2Proof.Machine

/-! ## Reset and load (R115, R125) -/

theorem step_reset {s : State} {q : List HostCommand} (h : s.hostQueue = .reset :: q) :
    step s = .next (State.resetOp { s with hostQueue := q }) := step_command h

theorem step_load {s : State} {image : List Byte} {q : List HostCommand} (h : s.hostQueue = .load image :: q) :
    step s = .next (State.loadOp { s with hostQueue := q } image) := step_command h

theorem State.reg_resetOp (s : State) (r : Reg) : s.resetOp.reg r = 0x00 := Vector.getElem_replicate r.isLt

/-- Settles O46: the reset puts constants in the machine's own fields, the mode by the image, and keeps the rest. -/
theorem resetCommandPutsTheResetValues : Obligations.ResetCommandPutsTheResetValues := by
  refine fun s q hq => ⟨_, step_reset hq, State.reg_resetOp _, rfl, rfl, rfl, fun k hk => ?_,
    fun y x _ _ => pixelAt_blank y x, rfl, rfl, rfl, fun hnone => ?_, fun bytes hsome => ?_, rfl, rfl, rfl,
    ⟨rfl, rfl⟩, rfl⟩
  · exact Vector.getElem?_replicate_of_lt hk
  · exact congrArg resetMode hnone
  · exact congrArg resetMode hsome

/-- Settles O48: a load is a record of the image and a reset. -/
theorem loadRecordsTheImageAndResets : Obligations.LoadRecordsTheImageAndResets := by
  intro s image q hq
  rw [step_load hq, step_reset rfl]
  exact ⟨rfl, _, rfl, rfl, rfl, rfl⟩

/-- Settles O49: each command is one field write, or none. -/
theorem otherHostCommandsChangeOneThing : Obligations.OtherHostCommandsChangeOneThing := fun _ _ =>
  ⟨fun hq => step_command hq, fun hq => step_command hq, fun _ hq => step_command hq⟩

/-! ## Memory after a reset (R125) -/

/-- A list written from `base` into blank memory: address `a` is `k` bytes on from `base`, around the end of memory. -/
theorem Memory.read_writeBytes_blank {bytes : List Byte} (hl : bytes.length ≤ memSize) (base : Nat) {a : Nat}
    (ha : a < memSize) :
    Memory.read (Memory.writeBytes [] base bytes) a =
      (bytes[(a + memSize - base % memSize) % memSize]?).getD 0x00 := by
  generalize hk : (a + memSize - base % memSize) % memSize = k
  have haddr : (base + k) % memSize = a := by subst hk; unfold memSize at *; omega
  cases hb : bytes[k]? with
  | some b =>
    rw [← haddr, Memory.read_mod]
    exact Memory.read_writeBytes_same rfl base hl hb
  | none =>
    have hend : bytes.length ≤ k := List.getElem?_eq_none_iff.1 hb
    have hklt : k < memSize := hk ▸ Nat.mod_lt _ (by decide)
    refine Memory.read_writeBytes_other [] bytes fun j hj => ?_
    unfold memSize at *
    omega

theorem imageFits_length {image : Option (List Byte)} (h : imageFits image = true) :
    (image.getD []).length ≤ programMax := by
  cases image with
  | none => exact Nat.zero_le _
  | some bytes => exact of_decide_eq_true h

theorem resetMemory_read_image (cfg : Config) {image : Option (List Byte)} (hfits : imageFits image = true) {k : Nat}
    {b : Byte} (hb : (image.getD [])[k]? = some b) : Memory.read (resetMemory cfg image) (programBase + k) = b :=
  have hl : (image.getD []).length ≤ memSize := (imageFits_length hfits).trans (by decide)
  Memory.read_writeBytes_same (Memory.writeBytes_wf rfl _ _) programBase hl hb

/-- Where the image does not reach, memory is as the font left it. -/
theorem resetMemory_read_font {cfg : Config} {image : Option (List Byte)} (hfits : imageFits image = true)
    (hfont : (cfg.fontImage.getD []).length ≤ memSize) {a : Nat} (ha : a < memSize)
    (hout : a < programBase ∨ (image.getD [])[a - programBase]? = none) :
    Memory.read (resetMemory cfg image) a =
      ((cfg.fontImage.getD [])[(a + memSize - cfg.fontBase.toNat % memSize) % memSize]?).getD 0x00 := by
  have hl := imageFits_length hfits
  have hne : ∀ k, k < (image.getD []).length → a % memSize ≠ (programBase + k) % memSize := by
    rw [List.getElem?_eq_none_iff] at hout
    intro k hk
    unfold memSize programBase programMax at *
    omega
  rw [resetMemory, Memory.read_writeBytes_other _ _ hne, Memory.read_writeBytes_blank hfont _ ha]

/-- Settles O47: the image is written last, over the font, which is written over zeros. -/
theorem resetMemoryHoldsTheImageAndTheFont : Obligations.ResetMemoryHoldsTheImageAndTheFont := by
  intro s t q a hq hstep hfits hfont ha
  rw [step_reset hq] at hstep
  cases hstep
  refine ⟨fun hle b hb => ?_, fun hout => resetMemory_read_font hfits hfont ha hout⟩
  have hread := resetMemory_read_image s.cfg hfits hb
  rwa [show programBase + (a - 0x200) = a from Nat.add_sub_cancel' hle] at hread

/-! ## What leaves a wait or `Idle` (R123, R128) -/

theorem tickAwaiting_mode (s : State) : (tickAwaiting s).mode = s.mode := by
  rcases tickAwaiting_cases s with h | h <;> rw [h]
  exact s.timerStep_mode

/-- Outside `Running` a tick keeps the mode. -/
theorem tick_keeps_mode_of_not_running {s t : State} (hm : s.mode ≠ .running) (h : tick s = .next t) :
    t.mode = s.mode := by
  cases hmode : s.mode with
  | idle =>
    rw [tick_idle hmode] at h
    cases h
    exact hmode
  | awaitingKey x =>
    rw [tick_awaiting hmode] at h
    cases h
    exact (tickAwaiting_mode s).trans hmode
  | running => exact absurd hmode hm

/-- Outside `Running` the mode is changed by no step but a key press, a reset or a load. -/
theorem step_keeps_mode_cases {s t : State} (hm : s.mode ≠ .running) (h : step s = .next t) :
    t.mode = s.mode
      ∨ ∃ q, (∃ k, s.hostQueue = .keyPress k :: q) ∨ s.hostQueue = .reset :: q ∨ ∃ image, s.hostQueue = .load image :: q := by
  rcases step_cases s with ⟨q, -, hq⟩ | ⟨c, q, hc, hqueue, hq⟩ <;> rw [hq] at h
  · exact .inl (tick_keeps_mode_of_not_running (s := { s with hostQueue := q }) hm h)
  · cases c with
    | tick => exact absurd rfl hc
    | keyPress k => exact .inr ⟨q, .inl ⟨k, hqueue⟩⟩
    | reset => exact .inr ⟨q, .inr (.inl hqueue)⟩
    | load image => exact .inr ⟨q, .inr (.inr ⟨image, hqueue⟩)⟩
    | loadFailed | frameAck | keys => cases h; exact .inl rfl

/-- Settles O50: any other step keeps the mode. -/
theorem waitIsLeftOnlyByKeyPressResetOrLoad : Obligations.WaitIsLeftOnlyByKeyPressResetOrLoad := by
  intro s t x hm h hleft
  have hne : s.mode ≠ .running := by simp [hm]
  exact (step_keeps_mode_cases hne h).resolve_left fun hmode => hleft (hmode.trans hm)

/-- Settles O51: of the three commands, a key press does nothing in `Idle`, and a reset finds no image to run. -/
theorem idleIsLeftOnlyByLoad : Obligations.IdleIsLeftOnlyByLoad := by
  intro s t hs hm h hleft
  have hne : s.mode ≠ .running := by simp [hm]
  rcases step_keeps_mode_cases hne h with hmode | ⟨q, ⟨k, hq⟩ | hq | ⟨image, hq⟩⟩
  · exact absurd (hmode.trans hm) hleft
  · have hidle : ∀ x : Reg, s.mode ≠ .awaitingKey x := by simp [hm]
    rw [step_keyPress hq, keyPress_of_not_awaiting (s := { s with hostQueue := q }) hidle] at h
    cases h
    exact absurd hm hleft
  · rw [step_reset hq] at h
    cases h
    exact absurd ((resetMode_idle_iff s.image).2 (hs.idle_iff.1 hm)) hleft
  · exact ⟨image, q, hq⟩

end Sys2Proof.Machine
end
